-- ==== Sys2Proof/Word.lean ====
section
/-! DEFINITION. The word types of the engine: the byte, a sequence of bytes, and the array `S`. -/

namespace Sys2Proof

/-- A byte, a value in 0..255 (00_scope.md R4). -/
abbrev Byte := BitVec 8

/-- A finite sequence of bytes whose ends the transport gives: a command packet or a response packet
(30_encoding.md R52, R55), or a key. -/
abbrev Packet := List Byte

/-- The permutation array: exactly 256 bytes, indexed 0..255 (10_state.md R10). The size is in the type, so it
never grows or shrinks, and equal contents are equal data (log 2). -/
abbrev Sbox := Vector Byte 256

end Sys2Proof
end

