-- ==== Sys2Proof/Config.lean ====
section
/-! DEFINITION. The parameters of 00_scope.md section 4 and the free draw `RESET_SIJ`. -/

namespace Sys2Proof

/-- `KLEN_MIN`, the shortest key INIT accepts (00_scope.md R4). -/
def Config.klenMin : Nat := 1

/-- `KLEN_MAX`, the longest key INIT accepts (00_scope.md section 4; 40_ksa_init.md R72). -/
def Config.klenMax : Nat := 256

/-- `COUNT_FIELD_WIDTH`, the bits of `count` in a NEXT packet (30_encoding.md R53, R54). -/
def Config.countFieldWidth : Nat := 32

/-- `RESET_SIJ`, the part for `S`: what the array holds after reset number `n`. A FREE VALUE under no law, not
necessarily a permutation and not necessarily zero (10_state.md R22; 93_implementation_defined.md U3; log 3).
DESIGN CHOICE: each reset takes a draw of its own. -/
opaque Config.resetS : Nat → Sbox

/-- `RESET_SIJ`, the part for `i` (10_state.md R22; log 3). A free value. -/
opaque Config.resetI : Nat → Byte

/-- `RESET_SIJ`, the part for `j` (10_state.md R22; log 3). A free value. -/
opaque Config.resetJ : Nat → Byte

end Sys2Proof
end

