-- ==== Sys2Proof/Syntax.lean ====
section
/-! DEFINITION. The commands of the engine, one constructor per row of spec/opcode_table.json. -/

namespace Sys2Proof

/-- A command at the operation level (30_encoding.md R50). There is no third command. -/
inductive Instr where
  /-- `INIT(key)`, the key-scheduling algorithm (40_ksa_init.md R70). The key length is the length of the
  sequence (30_encoding.md R51); the empty key and over-long keys are commands too, and fail when executed (R53). -/
  | init (key : List Byte)
  /-- `NEXT(count)`, the generation of `count` keystream bytes (41_prga_next.md R90). At the operation level
  `count` is any natural number (R100). -/
  | next (count : Nat)
  deriving DecidableEq, Repr

end Sys2Proof
end

