-- ==== Sys2Proof/WellFormed.lean ====
section
/-! DEFINITION. Which commands one command packet can carry. -/

namespace Sys2Proof

/-- A command that one packet can spell. Every key can be spelled, whatever its length (30_encoding.md R53); a
`count` must fit the count field (R54), a larger request being several packets (R60). -/
def Instr.wellFormed : Instr → Bool
  | .init _ => true
  | .next count => decide (count < 2 ^ Config.countFieldWidth)

end Sys2Proof
end

