-- ==== Sys2Proof/Decode.lean ====
section
/-! DEFINITION. The packet level: the decoder, total on byte sequences and rejecting by name; the encoder, its
inverse; and the reading of an opcode-table word (30_encoding.md). -/

namespace Sys2Proof

/-- Why a packet is reserved: the three classes of the opcode map (30_encoding.md R57). -/
inductive Reserved where
  /-- The packet of length 0. -/
  | emptyPacket
  /-- The first byte is neither `01` nor `02`. -/
  | unknownOpcode (opcode : Byte)
  /-- The first byte is `02` and the packet, of this length, is not 5 bytes long. -/
  | nextLength (length : Nat)
  deriving DecidableEq, Repr

/-- What the decoder answers: a command, or "reserved" with the reason (30_encoding.md R57). -/
inductive Decoded where
  | command (i : Instr)
  | reserved (why : Reserved)
  deriving DecidableEq, Repr

/-- The command of a decoder's answer, none for a reserved packet. -/
def Decoded.toCommand : Decoded → Option Instr
  | .command i => some i
  | .reserved _ => none

/-- The opcode byte of INIT (30_encoding.md R53, format K). -/
def opInit : Byte := 0x01#8

/-- The opcode byte of NEXT (30_encoding.md R53, format C). -/
def opNext : Byte := 0x02#8

/-- `count`, unsigned and little-endian, from the four bytes of the field (30_encoding.md R53, R54). -/
def assembleCount (c0 c1 c2 c3 : Byte) : Nat :=
  c0.toNat + 256 * c1.toNat + 65536 * c2.toNat + 16777216 * c3.toNat

/-- Format C, the bytes after the opcode byte: exactly four (30_encoding.md R53, R57). -/
def decodeNext : Packet → Decoded
  | [c0, c1, c2, c3] => .command (.next (assembleCount c0 c1 c2 c3))
  | rest => .reserved (.nextLength (rest.length + 1))

/-- The decoder (30_encoding.md section 5): the opcode map on the first byte and the length. -/
def decode : Packet → Decoded
  | [] => .reserved .emptyPacket
  | op :: rest =>
    if op = opInit then .command (.init rest)
    else if op = opNext then decodeNext rest
    else .reserved (.unknownOpcode op)

/-- Byte `n` of a count, byte 0 the least significant (30_encoding.md R53, R54). -/
def countByte (count n : Nat) : Byte := BitVec.ofNat 8 (count / 256 ^ n)

/-- The encoder (30_encoding.md section 5), the inverse of `decode` on well-formed commands. The spec requires `count < 2^32`;
beyond it the formula of the spec is kept, which drops the high bits, and nothing of the model presents such a packet
(`packetsOfListing` refuses the listing). DESIGN CHOICE (log 15). -/
def encode : Instr → Packet
  | .init key => opInit :: key
  | .next count => [opNext, countByte count 0, countByte count 1, countByte count 2, countByte count 3]

/-- The first `n` bytes of a word numbered as spec/opcode_table.json numbers it: bits 7..0 are the first byte,
bits 15..8 the second, and so on. -/
def bytesOfWord : Nat → Nat → Packet
  | 0, _ => []
  | n + 1, w => BitVec.ofNat 8 w :: bytesOfWord n (w / 256)

/-- How long a packet of this first byte is at least when its operand bytes are there: INIT with one key byte
(`KLEN_MIN` is 1), NEXT with its four count bytes. -/
def leastLength (P : Packet) : Nat :=
  match P.head? with
  | some op => if op = opInit then 2 else if op = opNext then 5 else 1
  | none => 0

/-- The packet whose bits are the `nbits` bits of `w`, operand bytes that the word does not give being zero.
DESIGN CHOICE (log 7): an INIT word of the opcode byte alone is framed as INIT of the one-byte key `00`, because
the table gives the key no bits and the transport, not the word, gives the length (30_encoding.md R52). -/
def frameWord (nbits w : Nat) : Packet :=
  let P := bytesOfWord ((nbits + 7) / 8) w
  P ++ List.replicate (leastLength P - P.length) 0#8

/-- The command that the decoder reads from an opcode-table word of `nbits` bits, none where it refuses. -/
def decodeTableWord (nbits w : Nat) : Option Instr := (decode (frameWord nbits w)).toCommand

end Sys2Proof
end

