-- ==== Sys2Proof/Machine/State.lean ====
section
/-! DEFINITION. The state of the engine and of its command port, the outcomes, and the state after reset. -/

namespace Sys2Proof.Machine

/-- What the host does to the engine between two commands. -/
inductive HostEvent where
  /-- The host presents one command packet (30_encoding.md R52). -/
  | packet (P : Packet)
  /-- A reset, an event from outside the command stream (70_reset_and_hazards.md R140). -/
  | reset
  deriving DecidableEq, Repr

/-- The two errors (60_exceptions.md R110). -/
inductive EngineError where
  /-- Raised by INIT, with the offending length, which is not sent (60_exceptions.md R111). -/
  | invalidKeyLength (klen : Nat)
  /-- Raised by NEXT in the Uninitialized state (60_exceptions.md R112). -/
  | notInitialized
  deriving DecidableEq, Repr

/-- The result of a command at the operation level (30_encoding.md R55). -/
inductive Response where
  /-- The command completed; `data` is the keystream of a NEXT and empty for an INIT. -/
  | ok (data : List Byte)
  /-- The command failed. -/
  | error (e : EngineError)
  deriving DecidableEq, Repr

/-- The whole state. `S`, `i`, `j` and `ready` are the engine's (10_state.md section 1); `inbox` and `outbox` are
the host's side of the command port (log 1); `draws` is the model's own counter of free values (log 3). -/
structure State where
  /-- The permutation array (10_state.md R10). -/
  S : Sbox
  /-- The index register `i` (10_state.md R12). -/
  i : Byte
  /-- The index register `j` (10_state.md R13). -/
  j : Byte
  /-- `false` is Uninitialized, `true` is Ready (10_state.md R15). -/
  ready : Bool
  /-- What the host has still to present, in its order (10_state.md R18; 20_memory.md R39). DESIGN CHOICE (log 1). -/
  inbox : List HostEvent
  /-- The response packets the host has received, oldest first; the engine never reads them (10_state.md R20).
  DESIGN CHOICE (log 1). -/
  outbox : List Packet
  /-- How many free draws of `RESET_SIJ` have been taken. DESIGN CHOICE (log 3). -/
  draws : Nat
  deriving DecidableEq, Repr

/-- There is no fault: the engine's two errors are responses after which it goes on (60_exceptions.md R114, R118),
it can neither hang nor wait (70_reset_and_hazards.md R153), and it has no terminal state (R154). Nothing raises a
fault, so the type has no constructor. DEDUCED, safe (log 12). -/
inductive Fault where
  deriving DecidableEq, Repr

/-- What the model gives no meaning. -/
inductive Refusal where
  /-- Raised by an arm of `exec` whose command has no meaning in the model; no arm raises it. Safe. -/
  | notModelled (mnemonic : String)
  /-- Raised by `step` when the host presents a reserved packet: it spells no command, and the spec gives the engine
  no behaviour for it (30_encoding.md R57; 93_implementation_defined.md U6). Safe (log 5). -/
  | reservedPacket (why : Reserved)
  deriving DecidableEq, Repr

/-- The engine right after reset, nothing presented yet: Uninitialized, the contents of `S`, `i` and `j` a free draw
(10_state.md R22; 70_reset_and_hazards.md R140, R141; log 3). -/
def State.reset : State where
  S := Config.resetS 0
  i := Config.resetI 0
  j := Config.resetJ 0
  ready := false
  inbox := []
  outbox := []
  draws := 1

end Sys2Proof.Machine
end

