-- ==== Sys2Proof/Machine/Ops.lean ====
section
/-! DEFINITION. The named operations over the array, the registers and the port: arithmetic, reading, writing and
swapping entries of `S`, responding, raising an error, and the reset event. -/

namespace Sys2Proof.Machine

/-- `add8(a, b) = (a + b) mod 256`, the carry discarded (00_scope.md R6). -/
def add8 (a b : Byte) : Byte := a + b

/-- `umod(t, n)`, the non-negative remainder (00_scope.md R7). Never used with `n = 0`. -/
def umod (t n : Nat) : Nat := t % n

/-- `S[a]`; a byte is always a valid index (20_memory.md R31). -/
def readS (S : Sbox) (a : Byte) : Byte := S[a.toNat]'a.isLt

/-- `S[a] <- v` (00_scope.md section 5.2). -/
def writeS (S : Sbox) (a v : Byte) : Sbox := S.set a.toNat v a.isLt

/-- `swap(S, a, b)`: `tmp <- S[a]; S[a] <- S[b]; S[b] <- tmp` (00_scope.md R8). -/
def swap (S : Sbox) (a b : Byte) : Sbox :=
  let tmp := readS S a
  writeS (writeS S a (readS S b)) b tmp

/-- The identity array, `S[n] = n` (40_ksa_init.md R73). -/
def identityS : Sbox := Vector.ofFn fun n => BitVec.ofFin n

/-- Writes the array. -/
def State.setS (S : Sbox) (s : State) : State := { s with S := S }

/-- Writes the register `i`. -/
def State.setI (i : Byte) (s : State) : State := { s with i := i }

/-- Writes the register `j`. -/
def State.setJ (j : Byte) (s : State) : State := { s with j := j }

/-- The host has `rest` left to present: the port has taken the first event (20_memory.md R43). -/
def State.setInbox (rest : List HostEvent) (s : State) : State := { s with inbox := rest }

/-- Hands one response packet to the host (30_encoding.md R55). -/
def State.deliver (Q : Packet) (s : State) : State := { s with outbox := s.outbox ++ [Q] }

/-- One more free draw has been taken (log 3). -/
def State.countDraw (s : State) : State := { s with draws := s.draws + 1 }

/-- The status byte `OK` (30_encoding.md R56). -/
def statusOk : Byte := 0x00#8

/-- The status byte of an error (30_encoding.md R56; 60_exceptions.md R111, R112). -/
def statusOfError : EngineError → Byte
  | .invalidKeyLength _ => 0x01#8
  | .notInitialized => 0x02#8

/-- The response packet: the status byte, then the data of a success, nothing after an error (30_encoding.md R55). -/
def encodeResponse : Response → Packet
  | .ok data => statusOk :: data
  | .error e => [statusOfError e]

/-- Ends a command with its one response (30_encoding.md R55). -/
def respond (r : Response) (s : State) : State := s.deliver (encodeResponse r)

/-- TAKING AN ERROR, the engine's only exception entry (60_exceptions.md R114, R117): the command is abandoned before
its first write and the status byte is sent; nothing is saved, no mode changes, control goes nowhere. There is no
return to perform (R118): the next command is taken as after a success. -/
def raiseError (e : EngineError) (s : State) : State := respond (.error e) s

end Sys2Proof.Machine
end

