-- ==== Sys2Proof/Machine/Flags.lean ====
section
/-! DEFINITION. The engine's only flag, `ready` (10_state.md R15). No command computes a carry, zero, overflow or sign
flag (10_state.md section 4). -/

namespace Sys2Proof.Machine

/-- Writes the flag `ready`: a successful INIT sets it (40_ksa_init.md R77), a reset clears it (10_state.md R22). -/
def State.setReady (b : Bool) (s : State) : State := { s with ready := b }

end Sys2Proof.Machine
end

