-- ==== Sys2Proof/Machine/Operands.lean ====
section
/-! DEFINITION. The operand forms: the key of INIT, read cyclically. The count of NEXT is a plain number, assembled
by the decoder. -/

namespace Sys2Proof.Machine

/-- `klen = len(key)` (30_encoding.md R51). -/
def keyLength (key : List Byte) : Nat := key.length

/-- `key[umod(t, klen)]`, the key byte of KSA round `t` (40_ksa_init.md R75). With a key of at least one byte the index is in
range (20_memory.md R32), so the default is never read. DEDUCED (log 11). -/
def keyByte (key : List Byte) (t : Nat) : Byte := key.getD (umod t (keyLength key)) 0#8

end Sys2Proof.Machine
end

