-- ==== Sys2Proof/Machine/Ksa.lean ====
section
/-! DEFINITION. INIT, the key-scheduling algorithm (40_ksa_init.md). -/

namespace Sys2Proof.Machine

/-- `ksa_round`: round `t` on the working array `T` and the running index `jk` (40_ksa_init.md R75). `T[t]` is read
before the swap, and the swap uses the new index. -/
def ksaRound (key : List Byte) (t : Nat) (T : Sbox) (jk : Byte) : Sbox × Byte :=
  let jk' := add8 (add8 jk (readS T (BitVec.ofNat 8 t))) (keyByte key t)
  (swap T (BitVec.ofNat 8 t) jk', jk')

/-- `T` and `jk` after the rounds `0 .. n-1`, in ascending order (40_ksa_init.md R75), from the identity (R73) and
`jk = 0` (R74). -/
def ksaRounds (key : List Byte) : Nat → Sbox × Byte
  | 0 => (identityS, 0#8)
  | t + 1 => ksaRound key t (ksaRounds key t).1 (ksaRounds key t).2

/-- The array that round 255 leaves (40_ksa_init.md R76): always exactly 256 rounds (R81). Irreducible, so that no
proof unrolls the 256 rounds by accident: `ksaArray_induction` says what it is, and the kernel computes it. -/
@[irreducible] def ksaArray (key : List Byte) : Sbox := (ksaRounds key 256).1

/-- Step 4 and the transition to Ready: `S <- T; i <- 0; j <- 0; ready <- 1` (40_ksa_init.md R76, R77). -/
def loadReady (T : Sbox) (s : State) : State := (((s.setS T).setI 0#8).setJ 0#8).setReady true

/-- `INIT(key)` (40_ksa_init.md R70): the two length checks (R71, R72) come before the first write. -/
def execInit (key : List Byte) (s : State) : Host.Outcome State Fault Refusal :=
  if keyLength key < Config.klenMin then .next (raiseError (.invalidKeyLength (keyLength key)) s)
  else if Config.klenMax < keyLength key then .next (raiseError (.invalidKeyLength (keyLength key)) s)
  else .next (respond (.ok []) (loadReady (ksaArray key) s))

end Sys2Proof.Machine
end

