-- ==== Sys2Proof/Machine/Prga.lean ====
section
/-! DEFINITION. NEXT, the pseudo-random generation algorithm (41_prga_next.md). -/

namespace Sys2Proof.Machine

/-- Step 1 of a round: the new `i` (41_prga_next.md R93). -/
def nextI (s : State) : Byte := add8 s.i 1#8

/-- Step 2 of a round: the new `j`, from the entry at the NEW `i`, read before the swap (41_prga_next.md R94). -/
def nextJ (s : State) : Byte := add8 s.j (readS s.S (nextI s))

/-- Step 3 of a round: the array with those two entries exchanged (41_prga_next.md R95). -/
def nextS (s : State) : Sbox := swap s.S (nextI s) (nextJ s)

/-- Step 4 of a round: `k`, both entries read after the swap (41_prga_next.md R96). A transient (R103). -/
def nextK (s : State) : Byte := add8 (readS (nextS s) (nextI s)) (readS (nextS s) (nextJ s))

/-- `prga_round` (41_prga_next.md section 3): the state after one round and the byte it emits, `S[k]` read after the
swap (R97). -/
def prgaRound (s : State) : State × Byte :=
  (((s.setI (nextI s)).setJ (nextJ s)).setS (nextS s), readS (nextS s) (nextK s))

/-- `n` rounds, each on the state the one before it left, and the bytes in the order of the rounds
(41_prga_next.md R98). -/
def prgaRounds : Nat → State → State × List Byte
  | 0, s => (s, [])
  | n + 1, s =>
    ((prgaRounds n (prgaRound s).1).1, (prgaRound s).2 :: (prgaRounds n (prgaRound s).1).2)

/-- `NEXT(count)` (41_prga_next.md R90): the state check comes before anything else (R91). Total for every count (R100;
DEDUCED, log 13). -/
def execNext (count : Nat) (s : State) : Host.Outcome State Fault Refusal :=
  if s.ready then .next (respond (.ok (prgaRounds count s).2) (prgaRounds count s).1)
  else .next (raiseError .notInitialized s)

end Sys2Proof.Machine
end

