-- ==== Sys2Proof/Machine/Dispatch.lean ====
section
/-! DEFINITION. One arm per command: each calls its meaning. -/

namespace Sys2Proof.Machine

def exec (i : Instr) (s : State) : Host.Outcome State Fault Refusal :=
  match i with
  | .init key => Sys2Proof.Machine.execInit key s
  | .next count => Sys2Proof.Machine.execNext count s

end Sys2Proof.Machine
end

