-- ==== Sys2Proof/Machine/Port.lean ====
section
/-! DEFINITION. The command port: taking the host's next event, and the reset event. -/

namespace Sys2Proof.Machine

/-- What the port finds when it looks for the next event. -/
inductive Fetched where
  /-- The host has presented nothing. -/
  | idle
  /-- A reset; the state has the event taken off the list. -/
  | reset (s : State)
  /-- A packet that decodes; the state has the packet taken off the list. -/
  | command (i : Instr) (s : State)
  /-- A reserved packet. -/
  | reserved (why : Reserved)
  deriving DecidableEq, Repr

/-- Takes the host's next event: one command at a time, in the order the host presents them (20_memory.md R39, R43; DESIGN
CHOICE, log 1). -/
def fetch (s : State) : Fetched :=
  match s.inbox with
  | [] => .idle
  | .reset :: rest => .reset (s.setInbox rest)
  | .packet P :: rest =>
    match decode P with
    | .command i => .command i (s.setInbox rest)
    | .reserved why => .reserved why

/-- The reset event (70_reset_and_hazards.md R140): `ready` becomes 0, and `S`, `i`, `j` become a fresh free draw
(10_state.md R22; log 3). It answers nothing. -/
def resetEngine (s : State) : State :=
  ((((s.setS (Config.resetS s.draws)).setI (Config.resetI s.draws)).setJ (Config.resetJ s.draws)).setReady
    false).countDraw

/-- The host presents one packet before whatever it had still to present. -/
def presentPacket (P : Packet) (s : State) : State := s.setInbox (.packet P :: s.inbox)

end Sys2Proof.Machine
end

