-- ==== Sys2Proof/Machine/Step.lean ====
section
/-! DEFINITION. One step: one event of the host (92_eei_decisions.md D1), and the placing of an opcode-table word. -/

namespace Sys2Proof.Machine

/-- One step takes the host's next event. A command is executed whole (20_memory.md R39); a reset resets
(70_reset_and_hazards.md R140); with nothing presented the engine is idle and holds its state (60_exceptions.md R125;
70_reset_and_hazards.md R141); a reserved packet is refused (30_encoding.md R57). -/
def step (s : State) : Host.Outcome State Fault Refusal :=
  match fetch s with
  | .idle => .next s
  | .reset t => .next (resetEngine t)
  | .command i t => exec i t
  | .reserved why => .refused (.reservedPacket why)

/-- The state in which the host presents, as its very next event, the packet of this opcode-table word (log 7). -/
def State.withFetchWord (s : State) (nbits w : Nat) : State := presentPacket (frameWord nbits w) s

end Sys2Proof.Machine
end

