-- ==== Sys2Proof/Machine/Listing.lean ====
section
/-! DEFINITION. The listing syntax and the pseudo-instructions (30_encoding.md R59, R60). Both are the host's: a listing is
read and expanded before any packet is presented. A line is a list of characters. DESIGN CHOICE (log 8): spacing, the case of
hexadecimal digits, and that a REKEY line names at least one byte. -/

namespace Sys2Proof.Machine

/-- One line of a listing: the two commands and the two pseudo-instructions. -/
inductive ListingLine where
  | init (key : List Byte)
  | next (count : Nat)
  | nextl (count : Nat)
  | rekey (key : List Byte)
  deriving DecidableEq, Repr

/-- The greatest count one packet carries, which is also the piece `NEXTL` is cut into (30_encoding.md R53, R60). -/
def nextlPiece : Nat := 4294967295

/-- `NEXTL count`: `count div 4294967295` commands `NEXT 4294967295`, then the rest unless it is 0 (30_encoding.md R60).
The rule gives this for a count of 2^32 or more. DESIGN CHOICE (log 14): the model uses the same formula for every smaller
count too, so `NEXTL 0` is no command at all and brings no response, unlike `NEXT 0`. -/
def expandNextl (count : Nat) : List Instr :=
  List.replicate (count / nextlPiece) (.next nextlPiece)
    ++ if count % nextlPiece = 0 then [] else [.next (count % nextlPiece)]

/-- The commands that a line stands for; `REKEY` is another spelling of `INIT` (30_encoding.md R60). -/
def expandLine : ListingLine → List Instr
  | .init key => [.init key]
  | .next count => [.next count]
  | .nextl count => expandNextl count
  | .rekey key => [.init key]

/-- The sixteen digits of a byte listing (00_scope.md section 5.1). -/
def hexDigits : List Char :=
  ['0', '1', '2', '3', '4', '5', '6', '7', '8', '9', 'a', 'b', 'c', 'd', 'e', 'f']

/-- A byte as two hexadecimal digits. -/
def hexByte (b : Byte) : List Char :=
  [hexDigits.getD (b.toNat / 16) '0', hexDigits.getD (b.toNat % 16) '0']

/-- The value of a digit below `base`. -/
def digitValue (base : Nat) (c : Char) : Option Nat :=
  let n := hexDigits.idxOf c
  if n < base then some n else none

/-- Reads a byte of two hexadecimal digits. -/
def readHexByte : List Char → Option Byte
  | [hi, lo] =>
    match digitValue 16 hi, digitValue 16 lo with
    | some h, some l => some (BitVec.ofNat 8 (16 * h + l))
    | _, _ => none
  | _ => none

/-- Reads decimal digits after those whose value is `acc`. -/
def readDecimalFrom (acc : Nat) : List Char → Option Nat
  | [] => some acc
  | c :: cs =>
    match digitValue 10 c with
    | some d => readDecimalFrom (10 * acc + d) cs
    | none => none

/-- Reads a decimal number of at least one digit. -/
def readDecimal : List Char → Option Nat
  | [] => none
  | cs => readDecimalFrom 0 cs

/-- Reads bytes, one a word. -/
def readKey : List (List Char) → Option (List Byte)
  | [] => some []
  | w :: ws =>
    match readHexByte w, readKey ws with
    | some b, some bs => some (b :: bs)
    | _, _ => none

/-- Reads one or more bytes, one a word. -/
def readSomeKey : List (List Char) → Option (List Byte)
  | [] => none
  | ws => readKey ws

/-- Cuts a line at its spaces; `word` holds the characters of the word being read. -/
def splitWords (word : List Char) : List Char → List (List Char)
  | [] => if word = [] then [] else [word]
  | c :: cs =>
    if c = ' ' then (if word = [] then splitWords [] cs else word :: splitWords [] cs)
    else splitWords (word ++ [c]) cs

/-- Puts one space between words. -/
def joinWords : List (List Char) → List Char
  | [] => []
  | [w] => w
  | w :: ws => w ++ ' ' :: joinWords ws

/-- The word `INIT`. -/
def wordInit : List Char := ['I', 'N', 'I', 'T']
/-- The word `NEXT`. -/
def wordNext : List Char := ['N', 'E', 'X', 'T']
/-- The word `NEXTL`. -/
def wordNextl : List Char := ['N', 'E', 'X', 'T', 'L']
/-- The word `REKEY`. -/
def wordRekey : List Char := ['R', 'E', 'K', 'E', 'Y']
/-- The word `EMPTY`, which stands for the key of no bytes. -/
def wordEmpty : List Char := ['E', 'M', 'P', 'T', 'Y']

/-- The words of a line (30_encoding.md R59, R60). -/
def wordsOfLine : ListingLine → List (List Char)
  | .init [] => [wordInit, wordEmpty]
  | .init (b :: bs) => wordInit :: (b :: bs).map hexByte
  | .next count => [wordNext, Nat.toDigits 10 count]
  | .nextl count => [wordNextl, Nat.toDigits 10 count]
  | .rekey key => wordRekey :: key.map hexByte

/-- The text of a line (30_encoding.md R59). -/
def renderLine (l : ListingLine) : List Char := joinWords (wordsOfLine l)

/-- The line that a list of words spells (30_encoding.md R59, R60). -/
def lineOfWords : List (List Char) → Option ListingLine
  | m :: ops =>
    if m = wordInit then
      (if ops = [wordEmpty] then some (.init []) else (readSomeKey ops).map .init)
    else if m = wordRekey then (readSomeKey ops).map .rekey
    else if m = wordNext then
      (match ops with
        | [w] => (readDecimal w).map .next
        | _ => none)
    else if m = wordNextl then
      (match ops with
        | [w] => (readDecimal w).map .nextl
        | _ => none)
    else none
  | [] => none

/-- Reads one line; a `;` begins a comment (30_encoding.md R59). -/
def parseLine (cs : List Char) : Option ListingLine :=
  lineOfWords (splitWords [] (cs.takeWhile (fun c => c != ';')))

/-- A byte in the source's spelling, as in `0x3d`. -/
def sourceByte (b : Byte) : List Char := ['0', 'x'] ++ hexByte b

/-- Bytes in the source's spelling, separated by commas. -/
def sourceBytes : List Byte → List Char
  | [] => []
  | [b] => sourceByte b
  | b :: bs => sourceByte b ++ ',' :: sourceBytes bs

/-- The source's spelling of a command: `initialize([0x01,0x02])`, `initialize([])`, `next_bytes(8)`
(30_encoding.md R59). -/
def sourceCall : Instr → List Char
  | .init key =>
    ['i', 'n', 'i', 't', 'i', 'a', 'l', 'i', 'z', 'e', '(', '['] ++ sourceBytes key ++ [']', ')']
  | .next count =>
    ['n', 'e', 'x', 't', '_', 'b', 'y', 't', 'e', 's', '('] ++ Nat.toDigits 10 count ++ [')']

/-- The packets that a listing presents, line by line from the top (30_encoding.md R59). One packet cannot carry a `NEXT` of
2^32 or more (R54), and the spec does not say what a listing line that asks for one is. DESIGN CHOICE (log 15): a listing with
such a line presents nothing; `NEXTL` is the line for that count (R60). -/
def packetsOfListing (ls : List ListingLine) : Option (List Packet) :=
  let cs := ls.flatMap expandLine
  if cs.all Instr.wellFormed then some (cs.map encode) else none

end Sys2Proof.Machine
end

