-- ==== Sys2Proof/Safety.lean ====
section
/-! DEFINITION. The terms in which claims are made: the permutation invariant, what the host can tell apart, a run of
commands, the addresses NEXT stores to, and the two algorithms as plain arithmetic on natural numbers, written from the
source's own sentences and not from the machine. -/

namespace Sys2Proof.Safety

open Sys2Proof.Machine

/-- Every value 0..255 occurs in exactly one entry (10_state.md R11). -/
def IsPermutation (S : Sbox) : Prop :=
  ∀ v : Byte, ∃ a : Byte, readS S a = v ∧ ∀ b : Byte, readS S b = v → b = a

/-- The engine's invariant: while Ready, `S` is a permutation (10_state.md R11). -/
def PermutationWhenReady (s : State) : Prop := s.ready = true → IsPermutation s.S

/-- A key that INIT accepts: 1 to 256 bytes (30_encoding.md R50; 40_ksa_init.md R71, R72). -/
def ValidKey (key : List Byte) : Prop := 1 ≤ key.length ∧ key.length ≤ 256

/-- A command that fails in this state (60_exceptions.md R111, R112). -/
def Fails : Instr → State → Prop
  | .init key, _ => ¬ ValidKey key
  | .next _, s => s.ready = false

/-- The engine's own state is the same: `S`, `i`, `j` and `ready` (10_state.md section 1). -/
def SameEngine (s t : State) : Prop := s.S = t.S ∧ s.i = t.i ∧ s.j = t.j ∧ s.ready = t.ready

/-- Two states the spec gives the host no means to tell apart: the same flag, the same events to come, the same
responses so far, and, once a key has been loaded, the same array and indices (10_state.md R23). -/
def SameToHost (s t : State) : Prop :=
  s.ready = t.ready ∧ s.inbox = t.inbox ∧ s.outbox = t.outbox ∧
    (s.ready = true → s.S = t.S ∧ s.i = t.i ∧ s.j = t.j)

/-- The outcomes of two runs that the host cannot tell apart. -/
def SameOutcomeToHost : Host.Outcome State Fault Refusal → Host.Outcome State Fault Refusal → Prop
  | .next s, .next t => SameToHost s t
  | .refused r, .refused r' => r = r'
  | .fault f, .fault f' => f = f'
  | _, _ => False

/-- Executes commands one after another, stopping at the first that does not answer a next state. -/
def runCommands : List Instr → State → Host.Outcome State Fault Refusal
  | [], s => .next s
  | c :: cs, s =>
    match exec c s with
    | .next t => runCommands cs t
    | .fault f => .fault f
    | .refused r => .refused r

/-- The host's presenting of these commands, each by its packet (30_encoding.md R52, R53). -/
def presented (cs : List Instr) : List HostEvent := cs.map fun c => .packet (encode c)

/-- The S addresses that `n` rounds of NEXT store to, by the functions the rounds themselves use: the `i` and the `j` of
each round (41_prga_next.md R95). -/
def storedAddresses : Nat → State → List Byte
  | 0, _ => []
  | n + 1, s => nextI s :: nextJ s :: storedAddresses n (prgaRound s).1

/-- The reference exchange of two entries (00_scope.md R8), on an array that is a function of natural numbers. -/
def refSwap (A : Nat → Nat) (a b : Nat) : Nat → Nat :=
  fun n => if n = a then A b else if n = b then A a else A n

/-- The reference key-scheduling algorithm: the array and the running index after the rounds `0 .. n-1`
(40_ksa_init.md R73, R74, R75). -/
def refKsa (key : List Nat) : Nat → (Nat → Nat) × Nat
  | 0 => (fun n => n, 0)
  | t + 1 =>
    let jk := ((refKsa key t).2 + (refKsa key t).1 t + key.getD (t % key.length) 0) % 256
    (refSwap (refKsa key t).1 t jk, jk)

/-- The reference generator's state: the array and the two indices, as natural numbers. -/
structure RefState where
  S : Nat → Nat
  i : Nat
  j : Nat

/-- The state that the reference key-scheduling algorithm leaves (40_ksa_init.md R76). -/
def refInit (key : List Nat) : RefState := ⟨(refKsa key 256).1, 0, 0⟩

/-- Steps 1 to 3 of a reference round (41_prga_next.md R93, R94, R95). -/
def refRound (r : RefState) : RefState :=
  let i := (r.i + 1) % 256
  let j := (r.j + r.S i) % 256
  ⟨refSwap r.S i j, i, j⟩

/-- Steps 4 and 5: the byte of a round, from the state that its steps 1 to 3 leave (41_prga_next.md R96, R97). -/
def refByte (r : RefState) : Nat := r.S ((r.S r.i + r.S r.j) % 256)

/-- The reference state after `n` rounds (41_prga_next.md R98). -/
def refRounds (r : RefState) : Nat → RefState
  | 0 => r
  | n + 1 => refRound (refRounds r n)

/-- The machine's array and indices are those of a reference state. -/
def Represents (s : State) (r : RefState) : Prop :=
  (∀ a : Byte, (readS s.S a).toNat = r.S a.toNat) ∧ s.i.toNat = r.i ∧ s.j.toNat = r.j

/-- `data` is the first bytes of the keystream that follows a reference state, one a round, first round first
(41_prga_next.md R97, R98). -/
def IsKeystream (r : RefState) (data : List Byte) : Prop :=
  ∀ n : Nat, ∀ h : n < data.length, data[n].toNat = refByte (refRounds r (n + 1))

end Sys2Proof.Safety
end

