-- ==== Sys2Proof/Certificates/Slice0/Obligations.lean ====
section
/-! DEFINITION. The statements for the provers, each from a rule or a section of spec/. Where a docstring says "log n" the
clause is the model's own choice, recorded in notes/assumptions/n.md. -/

open Sys2Proof Sys2Proof.Machine Sys2Proof.Safety

/-! ## Primitives -/

/-- R6: `add8` is the exact sum reduced mod 256, and a three-term sum may be reduced after each addition or once. -/
def Obligations.AddReducesModulo256 : Prop :=
  ∀ a b c : Byte, (add8 a b).toNat = (a.toNat + b.toNat) % 256 ∧
    (add8 (add8 a b) c).toNat = (a.toNat + b.toNat + c.toNat) % 256

/-- 00_scope.md section 5.3 (R7): `umod(t, n)` is the remainder in `0..n-1` of a division by `n`. -/
def Obligations.UmodIsTheRemainder : Prop :=
  ∀ t n : Nat, 1 ≤ n → umod t n < n ∧ ∃ q, t = n * q + umod t n

/-- R8: `swap` exchanges two entries and nothing else; with equal indices it changes nothing. -/
def Obligations.SwapExchangesTwoEntries : Prop :=
  ∀ (S : Sbox) (a b : Byte),
    (∀ n, readS (swap S a b) n = if n = a then readS S b else if n = b then readS S a else readS S n) ∧
    swap S a a = S

/-- 20_memory.md section 1 (the derived rule R32): with an accepted key the index `umod(t, klen)` of every KSA round is inside the
key, and the byte read is the key's byte at that index. -/
def Obligations.KeyReadIsInRange : Prop :=
  ∀ (key : List Byte) (t : Nat), ValidKey key → t < 256 →
    umod t (keyLength key) < keyLength key ∧ key[umod t (keyLength key)]? = some (keyByte key t)

/-! ## The packet level -/

/-- 30_encoding.md section 5: `decode(encode(c)) = c` for every INIT with any key and every NEXT with `count < 2^32`. -/
def Obligations.DecodeOfEncode : Prop :=
  ∀ c : Instr, c.wellFormed = true → decode (encode c) = .command c

/-- 30_encoding.md section 5: `encode(decode(P)) = P` for every packet that is not reserved, and the command is
well-formed. -/
def Obligations.EncodeOfDecode : Prop :=
  ∀ (P : Packet) (c : Instr), decode P = .command c → encode c = P ∧ c.wellFormed = true

/-- R53, R57: the opcode map. Format K is every packet with first byte `01`; format C is every packet of exactly five
bytes with first byte `02`, its count the little-endian number of the other four, in `0..4294967295`; every other packet
is reserved, and a reserved packet that the host presents is refused. -/
def Obligations.OpcodeMapIsTheTable : Prop :=
  (∀ P key, decode P = .command (.init key) ↔ P = 0x01#8 :: key) ∧
  (∀ P count, decode P = .command (.next count) ↔
    ∃ c0 c1 c2 c3 : Byte, P = [0x02#8, c0, c1, c2, c3] ∧ count ≤ 4294967295 ∧
      count = c0.toNat + 256 * c1.toNat + 65536 * c2.toNat + 16777216 * c3.toNat) ∧
  (∀ P, (∃ why, decode P = .reserved why) ↔
    P = [] ∨ (∃ op rest, P = op :: rest ∧ op ≠ 0x01#8 ∧ op ≠ 0x02#8) ∨
      (∃ rest, P = 0x02#8 :: rest ∧ P.length ≠ 5)) ∧
  (∀ (s : State) P rest why, s.inbox = .packet P :: rest → decode P = .reserved why →
    step s = .refused (.reservedPacket why))

/-- 95_test_vectors.md part B4: the packets of the table decode as it says. -/
def Obligations.TabledPacketsDecode : Prop :=
  decode [0x01#8, 0x01#8, 0x02#8, 0x03#8, 0x04#8, 0x05#8] =
      .command (.init [0x01#8, 0x02#8, 0x03#8, 0x04#8, 0x05#8]) ∧
  decode [0x01#8] = .command (.init []) ∧
  decode [0x02#8, 0x2c#8, 0x01#8, 0x00#8, 0x00#8] = .command (.next 300) ∧
  decode [0x02#8, 0x80#8, 0x96#8, 0x98#8, 0x00#8] = .command (.next 10000000) ∧
  decode [0x02#8, 0xff#8, 0xff#8, 0xff#8, 0xff#8] = .command (.next 4294967295)

/-- 30_encoding.md section 6: the text that the model writes for a listing line is read back as that line, alone and with a
trailing comment. The round trip rests on the model's own choices of log 8: the spacing, the lower-case digits, and that a
`REKEY` line names at least one key byte. -/
def Obligations.ListingLineReadsBack : Prop :=
  ∀ l : ListingLine, l ≠ .rekey [] →
    parseLine (renderLine l) = some l ∧
    ∀ comment : List Char, parseLine (renderLine l ++ ' ' :: ';' :: comment) = some l

/-- 30_encoding.md section 6 (R60): what the pseudo-instructions expand to, and that the pieces of `NEXTL` are commands one packet
carries, leave the engine where the operation-level `NEXT` of the whole count leaves it, and return the same bytes. R60 gives
`NEXTL` for a count of 2^32 or more; that the same holds of every smaller count is the model's choice, log 14. That the engine
ends in the same state is the spec's own inference: "The final `S`, `i`, `j` are also the same either way", which
41_prga_next.md section 4 marks as derived from rule R98. -/
def Obligations.PseudoInstructionsExpand : Prop :=
  (∀ key, expandLine (.rekey key) = [.init key]) ∧
  (∀ count, expandLine (.nextl count) =
    List.replicate (count / 4294967295) (.next 4294967295) ++
      if count % 4294967295 = 0 then [] else [.next (count % 4294967295)]) ∧
  (∀ count, ∀ c ∈ expandLine (.nextl count), c.wellFormed = true) ∧
  (∀ (s : State) (count : Nat), s.ready = true →
    ∃ (t u : State) (datas : List (List Byte)),
      runCommands (expandLine (.nextl count)) s = .next t ∧ exec (.next count) s = .next u ∧ SameEngine t u ∧
      t.outbox = s.outbox ++ datas.map (fun data => 0x00#8 :: data) ∧
      u.outbox = s.outbox ++ [0x00#8 :: datas.flatten])

/-! ## Steps -/

/-- 20_memory.md sections 5 and 6: a step with a packet at the front that decodes to a (well-formed) command is `exec` of
that command, on the state from which the port has taken the packet (the list of events is log 1). -/
def Obligations.StepRunsThePresentedCommand : Prop :=
  ∀ (s : State) (P : Packet) (rest : List HostEvent) (c : Instr),
    s.inbox = .packet P :: rest → decode P = .command c → c.wellFormed = true →
    step s = exec c { s with inbox := rest }

/-- 60_exceptions.md section 7 (R125) and 70_reset_and_hazards.md section 1 (R141): with nothing presented the engine holds its
state (the step that does so is log 1). -/
def Obligations.IdleEngineHoldsItsState : Prop :=
  ∀ s : State, s.inbox = [] → step s = .next s

/-- 70_reset_and_hazards.md section 1 (R140): a reset between two commands puts the engine in the Uninitialized state and
answers nothing. Nothing is said of `S`, `i`, `j`, which R22 leaves unspecified (log 3). -/
def Obligations.ResetEventUninitializes : Prop :=
  ∀ (s : State) (rest : List HostEvent), s.inbox = .reset :: rest →
    ∃ t, step s = .next t ∧ t.ready = false ∧ t.inbox = rest ∧ t.outbox = s.outbox

/-- 10_state.md section 6 (R22): after reset `ready` is 0. That nothing is presented or delivered yet is log 1. -/
def Obligations.ResetStateIsUninitialized : Prop :=
  State.reset.ready = false ∧ State.reset.inbox = [] ∧ State.reset.outbox = []

/-- 60_exceptions.md section 8 and 70_reset_and_hazards.md section 4 (R153): a step answers a next state unless a reserved packet
is at the front, and then it is the refusal of that packet. That a step with nothing presented answers a next state is the model's
choice, log 1; that a reserved packet's refusal names one of three reasons is the model's naming, log 5. -/
def Obligations.StepStopsOnlyOnReservedPackets : Prop :=
  ∀ s : State,
    ((∃ t, step s = .next t) ↔ ¬ ∃ P rest why, s.inbox = .packet P :: rest ∧ decode P = .reserved why) ∧
    (∀ r, step s = .refused r ↔
      ∃ P rest why, s.inbox = .packet P :: rest ∧ decode P = .reserved why ∧ r = .reservedPacket why)

/-- 20_memory.md section 5 (R39): commands are executed whole, one a step, in the order the host presents them (the list of
events is log 1). -/
def Obligations.RunExecutesCommandsInOrder : Prop :=
  ∀ (cs : List Instr) (s : State), (∀ c ∈ cs, c.wellFormed = true) → s.inbox = presented cs →
    Host.Core.run Sys2Proof.core cs.length s = runCommands cs { s with inbox := [] }

/-! ## INIT -/

/-- R71: the empty key fails with InvalidKeyLength and nothing else happens. -/
def Obligations.EmptyKeyFails : Prop :=
  ∀ s : State, exec (.init []) s = .next { s with outbox := s.outbox ++ [[0x01#8]] }

/-- R72: a key of more than 256 bytes fails with InvalidKeyLength and nothing else happens. -/
def Obligations.OverlongKeyFails : Prop :=
  ∀ (key : List Byte) (s : State), 256 < key.length →
    exec (.init key) s = .next { s with outbox := s.outbox ++ [[0x01#8]] }

/-- R73, R74, R75, R76, R82: for an accepted key INIT leaves in `S` the array of the source's four steps (the reference
`refKsa`: identity, index 0, rounds 0 to 255 in order, each with the sum and the exchange of R75), `i` and `j` zero, and
answers the status OK alone. It completes for every accepted key, in every state. -/
def Obligations.InitComputesTheKeySchedule : Prop :=
  ∀ (key : List Byte) (s : State), ValidKey key →
    ∃ T : Sbox,
      exec (.init key) s =
        .next { s with S := T, i := 0#8, j := 0#8, ready := true, outbox := s.outbox ++ [[0x00#8]] } ∧
      ∀ a : Byte, (readS T a).toNat = (refKsa (key.map BitVec.toNat) 256).1 a.toNat

/-- R78: after INIT `S` is a permutation, and `S`, `i`, `j` depend on the key and on nothing else. -/
def Obligations.InitIsDeterminedByTheKey : Prop :=
  ∀ key : List Byte, ValidKey key →
    ∃ (T : Sbox) (i j : Byte), IsPermutation T ∧
      ∀ s : State, ∃ t, exec (.init key) s = .next t ∧ t.S = T ∧ t.i = i ∧ t.j = j

/-- R77: a successful INIT makes the engine Ready, a failed one does not; no command makes it Uninitialized. -/
def Obligations.OnlySuccessfulInitSetsReady : Prop :=
  ∀ (c : Instr) (s : State), ∃ t, exec c s = .next t ∧
    (t.ready = true ↔ s.ready = true ∨ ∃ key, c = .init key ∧ ValidKey key)

/-- R79: whatever two engines went through before, after INIT of the same key the same commands bring the same responses and
the same engine state, and the engine is Ready. -/
def Obligations.RekeyLeavesNoResidue : Prop :=
  ∀ (s u : State) (key : List Byte) (cs : List Instr), ValidKey key →
    ∃ (t v : State) (qs : List Packet),
      runCommands (.init key :: cs) s = .next t ∧ runCommands (.init key :: cs) u = .next v ∧
      SameEngine t v ∧ t.ready = true ∧ qs.length = cs.length + 1 ∧
      t.outbox = s.outbox ++ qs ∧ v.outbox = u.outbox ++ qs

/-- 40_ksa_init.md section 4 (the derived rule R80): a key repeated, within 256 bytes, leaves the same state as the key. -/
def Obligations.RepeatedKeyIsTheSameKey : Prop :=
  ∀ (key : List Byte) (m : Nat) (s : State), 1 ≤ m → 1 ≤ key.length → m * key.length ≤ 256 →
    ∃ t, exec (.init key) s = .next t ∧ exec (.init (List.replicate m key).flatten) s = .next t

/-- The frame of INIT (40_ksa_init.md R70, its writes; 60_exceptions.md R114): the host's events and the model's draw counter
are as before and one response is added at the end; a failed INIT leaves every entry of `S`, `i`, `j` and `ready` as they
were. A successful one writes all of `S`, `i`, `j` and `ready`. -/
def Obligations.InitFrame : Prop :=
  ∀ (key : List Byte) (s t : State), exec (.init key) s = .next t →
    t.inbox = s.inbox ∧ t.draws = s.draws ∧ (∃ q, t.outbox = s.outbox ++ [q]) ∧
    (¬ ValidKey key → (∀ a, readS t.S a = readS s.S a) ∧ t.i = s.i ∧ t.j = s.j ∧ t.ready = s.ready)

/-! ## NEXT -/

/-- R91: in the Uninitialized state NEXT of any count, zero too, fails with NotInitialized and nothing else happens. -/
def Obligations.NextBeforeInitFails : Prop :=
  ∀ (count : Nat) (s : State), s.ready = false →
    exec (.next count) s = .next { s with outbox := s.outbox ++ [[0x02#8]] }

/-- R92: in the Ready state NEXT of zero bytes changes nothing and answers OK with no data. -/
def Obligations.NextOfZeroChangesNothing : Prop :=
  ∀ s : State, s.ready = true →
    exec (.next 0) s = .next { s with outbox := s.outbox ++ [[0x00#8]] }

/-- R93, R94, R95, R96, R97, R98: round `n + 1` works on the state that the first `n` rounds leave, by the five steps in their
order, and appends exactly one byte to theirs; NEXT of `n` returns exactly `n` bytes. -/
def Obligations.EachRoundFollowsTheFiveSteps : Prop :=
  ∀ (s : State) (n : Nat), s.ready = true →
    ∃ (t u : State) (data : List Byte) (b : Byte),
      exec (.next n) s = .next t ∧ exec (.next (n + 1)) s = .next u ∧
      data.length = n ∧ t.outbox = s.outbox ++ [0x00#8 :: data] ∧ u.outbox = s.outbox ++ [0x00#8 :: (data ++ [b])] ∧
      (n = 0 → t.S = s.S ∧ t.i = s.i ∧ t.j = s.j) ∧
      u.i.toNat = (t.i.toNat + 1) % 256 ∧
      u.j.toNat = (t.j.toNat + (readS t.S u.i).toNat) % 256 ∧
      (∀ a, readS u.S a = if a = u.i then readS t.S u.j else if a = u.j then readS t.S u.i else readS t.S a) ∧
      b = readS u.S (BitVec.ofNat 8 (((readS u.S u.i).toNat + (readS u.S u.j).toNat) % 256))

/-- 41_prga_next.md sections 1 and 3 (R90, R98, R107): from any reference state that the engine's `S`, `i`, `j` are, NEXT returns
`count` bytes of the reference keystream, leaves `S`, `i`, `j` as the reference leaves them after `count` rounds, and stays
Ready. It completes for every count in every Ready state. -/
def Obligations.NextComputesTheKeystream : Prop :=
  ∀ (s : State) (r : RefState) (count : Nat), s.ready = true → Represents s r →
    ∃ (t : State) (data : List Byte), exec (.next count) s = .next t ∧
      data.length = count ∧ IsKeystream r data ∧ Represents t (refRounds r count) ∧
      t.ready = true ∧ t.inbox = s.inbox ∧ t.draws = s.draws ∧ t.outbox = s.outbox ++ [0x00#8 :: data]

/-- 41_prga_next.md section 4 (R99): a NEXT split in two returns the same bytes, cut at position `a`, and leaves the same state. The
clause about the state, `SameEngine u v`, is the spec's own inference: "The final `S`, `i`, `j` are also the same either way",
marked there as derived from rule R98. -/
def Obligations.SplitRequestsContinueTheKeystream : Prop :=
  ∀ (s : State) (a b : Nat), s.ready = true →
    ∃ (t u v : State) (xs ys : List Byte),
      exec (.next a) s = .next t ∧ exec (.next b) t = .next u ∧ exec (.next (a + b)) s = .next v ∧
      xs.length = a ∧ ys.length = b ∧
      u.outbox = s.outbox ++ [0x00#8 :: xs, 0x00#8 :: ys] ∧ v.outbox = s.outbox ++ [0x00#8 :: (xs ++ ys)] ∧
      SameEngine u v

/-- 41_prga_next.md section 5 (the derived rule R104): when `i = j` after step 2 the array is unchanged and the byte is
`S[(2 * S[i]) mod 256]`. -/
def Obligations.EqualIndicesLeaveTheArray : Prop :=
  ∀ s : State, s.ready = true →
    add8 s.j (readS s.S (add8 s.i 1#8)) = add8 s.i 1#8 →
    ∃ t, exec (.next 1) s = .next t ∧ t.S = s.S ∧
      t.outbox = s.outbox ++ [[0x00#8,
        readS s.S (BitVec.ofNat 8 ((2 * (readS s.S (add8 s.i 1#8)).toNat) % 256))]]

/-- 41_prga_next.md section 5 (the derived rule R105): the sum of step 4 is the same before and after the exchange. -/
def Obligations.SumIsTheSameBeforeTheSwap : Prop :=
  ∀ (S : Sbox) (i j : Byte),
    add8 (readS (swap S i j) i) (readS (swap S i j) j) = add8 (readS S i) (readS S j)

/-- 41_prga_next.md section 5 (the derived rule R106): when `k = i` the byte is what `S[j]` held before the round's exchange, and
when `k = j` it is what `S[i]` held. -/
def Obligations.ByteIsReadAfterTheSwap : Prop :=
  ∀ (s : State) (i j k : Byte), s.ready = true → i = add8 s.i 1#8 → j = add8 s.j (readS s.S i) →
    k = add8 (readS s.S i) (readS s.S j) →
    ∃ t, exec (.next 1) s = .next t ∧
      (k = i → t.outbox = s.outbox ++ [[0x00#8, readS s.S j]]) ∧
      (k = j → t.outbox = s.outbox ++ [[0x00#8, readS s.S i]])

/-- The frame of NEXT (41_prga_next.md R90, its writes, and R95): `ready`, the host's events and the model's draw counter are as
before and one response is added at the end; every entry of `S` outside the addresses that the rounds store to reads as
before; with `ready = 0`, or a count of 0, nothing is stored and `i`, `j` stay. -/
def Obligations.NextFrame : Prop :=
  ∀ (count : Nat) (s t : State), exec (.next count) s = .next t →
    t.ready = s.ready ∧ t.inbox = s.inbox ∧ t.draws = s.draws ∧ (∃ q, t.outbox = s.outbox ++ [q]) ∧
    (∀ a, a ∉ storedAddresses count s → readS t.S a = readS s.S a) ∧
    (s.ready = false ∨ count = 0 → (∀ a, readS t.S a = readS s.S a) ∧ t.i = s.i ∧ t.j = s.j)

/-! ## The registers and the invariant -/

/-- 10_state.md section 3 (R12): `i` is set to 0 by a successful INIT, advances by exactly 1 mod 256 per output byte, and no other
command, nor an idle engine, changes it. That an idle engine takes a step at all (the last clause) is the model's choice,
log 1. -/
def Obligations.IndexIAdvancesOncePerByte : Prop :=
  (∀ key s, ValidKey key → ∃ t, exec (.init key) s = .next t ∧ t.i = 0#8) ∧
  (∀ count s, s.ready = true →
    ∃ t, exec (.next count) s = .next t ∧ t.i.toNat = (s.i.toNat + count) % 256) ∧
  (∀ c s, Fails c s → ∃ t, exec c s = .next t ∧ t.i = s.i) ∧
  (∀ s, s.inbox = [] → ∃ t, step s = .next t ∧ t.i = s.i)

/-- R13: `j` is set to 0 by a successful INIT, and each output byte adds to it the entry of `S` at the new `i`, as the rounds
before left them. -/
def Obligations.IndexJFollowsTheArray : Prop :=
  (∀ key s, ValidKey key → ∃ t, exec (.init key) s = .next t ∧ t.j = 0#8) ∧
  (∀ n s, s.ready = true → ∃ t u, exec (.next n) s = .next t ∧ exec (.next (n + 1)) s = .next u ∧
    (n = 0 → t.j = s.j) ∧ u.j = add8 t.j (readS t.S u.i))

/-- 10_state.md section 3 (the derived rule R14): after INIT and any NEXT commands `i` is the number of bytes produced, mod 256. -/
def Obligations.IndexICountsTheBytes : Prop :=
  ∀ (key : List Byte) (counts : List Nat) (s : State), ValidKey key →
    ∃ t, runCommands (.init key :: counts.map .next) s = .next t ∧ t.i.toNat = counts.sum % 256

/-- R102: NEXT of any count keeps `S` a permutation. -/
def Obligations.NextKeepsThePermutation : Prop :=
  ∀ (count : Nat) (s : State), s.ready = true → IsPermutation s.S →
    ∃ t, exec (.next count) s = .next t ∧ IsPermutation t.S

/-- R11: the invariant that while Ready `S` is a permutation holds after every step from a state where it holds. -/
def Obligations.StepKeepsThePermutation : Prop :=
  ∀ s t : State, PermutationWhenReady s → step s = .next t → PermutationWhenReady t

/-- 10_state.md section 2 (R11): the invariant holds right after reset. -/
def Obligations.ResetMeetsThePermutationInvariant : Prop := PermutationWhenReady State.reset

/-- 10_state.md section 4 (R15, its derived sentence): `ready` goes from 1 to 0 only by a reset, and from 0 to 1 only by a
successful INIT. -/
def Obligations.ReadyChangesOnlyByResetAndInit : Prop :=
  ∀ s t : State, step s = .next t →
    (s.ready = true → t.ready = false → ∃ rest, s.inbox = .reset :: rest) ∧
    (s.ready = false → t.ready = true →
      ∃ P key rest, s.inbox = .packet P :: rest ∧ decode P = .command (.init key) ∧ ValidKey key)

/-! ## Errors and responses -/

/-- R114: a failed command changes no state; it answers its status byte alone. -/
def Obligations.FailedCommandChangesNothing : Prop :=
  ∀ (c : Instr) (s : State), Fails c s →
    ∃ e : Byte, exec c s = .next { s with outbox := s.outbox ++ [[e]] }

/-- R111: InvalidKeyLength is raised by INIT exactly when the key has length 0 or over 256, never by NEXT; its response is the
code `01` and nothing besides. -/
def Obligations.InvalidKeyLengthExactlyWhen : Prop :=
  ∀ (c : Instr) (s : State), ∃ (t : State) (q : Packet), exec c s = .next t ∧ t.outbox = s.outbox ++ [q] ∧
    (q.head? = some 0x01#8 ↔ ∃ key, c = .init key ∧ (key.length = 0 ∨ 256 < key.length)) ∧
    (q.head? = some 0x01#8 → q = [0x01#8])

/-- R112: NotInitialized is raised by NEXT exactly when the engine is Uninitialized, never by INIT; its response is the code
`02` and nothing besides. -/
def Obligations.NotInitializedExactlyWhen : Prop :=
  ∀ (c : Instr) (s : State), ∃ (t : State) (q : Packet), exec c s = .next t ∧ t.outbox = s.outbox ++ [q] ∧
    (q.head? = some 0x02#8 ↔ s.ready = false ∧ ∃ count, c = .next count) ∧
    (q.head? = some 0x02#8 → q = [0x02#8])

/-- R56: the status byte of every response is one of the three of the table, and each means what the table says; data follow
OK of a NEXT only. -/
def Obligations.StatusBytesMeanWhatTheTableSays : Prop :=
  ∀ (c : Instr) (s : State), ∃ (t : State) (status : Byte) (data : List Byte),
    exec c s = .next t ∧ t.outbox = s.outbox ++ [status :: data] ∧
    (status = 0x00#8 ∨ status = 0x01#8 ∨ status = 0x02#8) ∧
    (status = 0x00#8 ↔ ¬ Fails c s) ∧
    (status = 0x01#8 ↔ ∃ key, c = .init key ∧ (key.length = 0 ∨ 256 < key.length)) ∧
    (status = 0x02#8 ↔ s.ready = false ∧ ∃ count, c = .next count) ∧
    (data ≠ [] → status = 0x00#8 ∧ ∃ count, c = .next count ∧ data.length = count) ∧
    (status = 0x00#8 → ∀ count, c = .next count → data.length = count)

/-- 60_exceptions.md section 4 (R118): after an error the next command does what it would have done without it; the error is
not sticky. -/
def Obligations.ErrorLeavesNoTrace : Prop :=
  ∀ (c d : Instr) (s : State), Fails c s →
    ∃ (t u v : State) (e : Byte) (q : Packet),
      exec c s = .next t ∧ exec d t = .next u ∧ exec d s = .next v ∧ SameEngine u v ∧
      u.outbox = s.outbox ++ [[e], q] ∧ v.outbox = s.outbox ++ [q]

/-- 70_reset_and_hazards.md section 2 (R142): before a successful INIT every NEXT fails with NotInitialized and does no harm; after
one every NEXT succeeds. -/
def Obligations.KeystreamNeedsOneSuccessfulInit : Prop :=
  ∀ (early later : List Nat) (key : List Byte) (s : State), s.ready = false → ValidKey key →
    runCommands (early.map .next) s = .next { s with outbox := s.outbox ++ List.replicate early.length [0x02#8] } ∧
    ∃ (t : State) (qs : List Packet),
      runCommands (early.map .next ++ .init key :: later.map .next) s = .next t ∧
      t.outbox = s.outbox ++ List.replicate early.length [0x02#8] ++ [0x00#8] :: qs ∧
      qs.length = later.length ∧ ∀ q ∈ qs, q.head? = some 0x00#8

/-- 10_state.md section 5 (R20): the engine never reads a response it has sent; the transcript is the host's (log 1). -/
def Obligations.TranscriptIsNeverRead : Prop :=
  ∀ (c : Instr) (s : State) (o : List Packet), ∃ (t : State) (q : Packet),
    exec c s = .next t ∧ t.outbox = s.outbox ++ [q] ∧
    exec c { s with outbox := o } = .next { t with outbox := o ++ [q] }

/-! ## Whole-machine statements -/

/-- 10_state.md section 6 (the derived rule R23) for one step: states the host cannot tell apart stay so. -/
def Obligations.StepKeepsWhatTheHostCanTell : Prop :=
  ∀ s t : State, SameToHost s t → SameOutcomeToHost (step s) (step t)

/-- R5: from two Uninitialized engines, whatever their `S`, `i`, `j` are (R22), the same events bring the same responses, the
same stop at a reserved packet if there is one, and, where the engine ends Ready, the same `S`, `i`, `j`. -/
def Obligations.ResponsesDependOnTheCommandsAlone : Prop :=
  ∀ (n : Nat) (s t : State), s.ready = false → t.ready = false → s.inbox = t.inbox → s.outbox = t.outbox →
    SameOutcomeToHost (Host.Core.run Sys2Proof.core n s) (Host.Core.run Sys2Proof.core n t)

/-- 00_scope.md sections 2 and 3 (R1, R3), the headline: from any state, an INIT packet with an accepted key and then a NEXT packet bring
the response OK and the response OK with exactly `count` bytes, which are the first `count` bytes of the keystream that the
source's key-scheduling and generation algorithms give for that key. That the host's packets stand in a list of events, and its
responses in another, is the model's choice, log 1. -/
def Obligations.EngineComputesRc4 : Prop :=
  ∀ (s : State) (key : List Byte) (c0 c1 c2 c3 : Byte) (rest : List HostEvent), ValidKey key →
    s.inbox = .packet (0x01#8 :: key) :: .packet [0x02#8, c0, c1, c2, c3] :: rest →
    ∃ (t : State) (data : List Byte),
      Host.Core.run Sys2Proof.core 2 s = .next t ∧
      data.length = c0.toNat + 256 * c1.toNat + 65536 * c2.toNat + 16777216 * c3.toNat ∧
      IsKeystream (refInit (key.map BitVec.toNat)) data ∧
      t.outbox = s.outbox ++ [[0x00#8], 0x00#8 :: data] ∧ t.inbox = rest
end

