-- ==== Sys2Proof/Laws/Decode.lean ====
section
/-! SUPPORT. The decoder, packet shape by packet shape, and the count field. -/

namespace Sys2Proof

theorem decode_nil : decode [] = .reserved .emptyPacket := rfl

theorem decode_opInit (key : List Byte) : decode (0x01#8 :: key) = .command (.init key) := rfl

theorem decode_opNext (rest : Packet) : decode (0x02#8 :: rest) = decodeNext rest := rfl

theorem decode_other {op : Byte} (rest : Packet) (h1 : op ≠ 0x01#8) (h2 : op ≠ 0x02#8) :
    decode (op :: rest) = .reserved (.unknownOpcode op) := by
  simp [decode, opInit, opNext, h1, h2]

theorem decodeNext_of_length {rest : Packet} (h : rest.length ≠ 4) :
    decodeNext rest = .reserved (.nextLength (rest.length + 1)) := by
  match rest, h with
  | [], _ => rfl
  | [_], _ => rfl
  | [_, _], _ => rfl
  | [_, _, _], _ => rfl
  | [_, _, _, _], h => exact absurd rfl h
  | _ :: _ :: _ :: _ :: _ :: _, _ => rfl

theorem assembleCount_lt (c0 c1 c2 c3 : Byte) : assembleCount c0 c1 c2 c3 < 2 ^ 32 := by
  have h0 := c0.isLt; have h1 := c1.isLt; have h2 := c2.isLt; have h3 := c3.isLt
  simp only [assembleCount]; omega

end Sys2Proof
end

