-- ==== Sys2Proof/Laws/State.lean ====
section
/-! SUPPORT. Every field of State under every named update. -/

namespace Sys2Proof.Machine

@[simp] theorem State.setS_S (S : Sbox) (s : State) : (s.setS S).S = S := rfl
@[simp] theorem State.setS_i (S : Sbox) (s : State) : (s.setS S).i = s.i := rfl
@[simp] theorem State.setS_j (S : Sbox) (s : State) : (s.setS S).j = s.j := rfl
@[simp] theorem State.setS_ready (S : Sbox) (s : State) : (s.setS S).ready = s.ready := rfl
@[simp] theorem State.setS_inbox (S : Sbox) (s : State) : (s.setS S).inbox = s.inbox := rfl
@[simp] theorem State.setS_outbox (S : Sbox) (s : State) : (s.setS S).outbox = s.outbox := rfl
@[simp] theorem State.setS_draws (S : Sbox) (s : State) : (s.setS S).draws = s.draws := rfl

@[simp] theorem State.setI_S (i : Byte) (s : State) : (s.setI i).S = s.S := rfl
@[simp] theorem State.setI_i (i : Byte) (s : State) : (s.setI i).i = i := rfl
@[simp] theorem State.setI_j (i : Byte) (s : State) : (s.setI i).j = s.j := rfl
@[simp] theorem State.setI_ready (i : Byte) (s : State) : (s.setI i).ready = s.ready := rfl
@[simp] theorem State.setI_inbox (i : Byte) (s : State) : (s.setI i).inbox = s.inbox := rfl
@[simp] theorem State.setI_outbox (i : Byte) (s : State) : (s.setI i).outbox = s.outbox := rfl
@[simp] theorem State.setI_draws (i : Byte) (s : State) : (s.setI i).draws = s.draws := rfl

@[simp] theorem State.setJ_S (j : Byte) (s : State) : (s.setJ j).S = s.S := rfl
@[simp] theorem State.setJ_i (j : Byte) (s : State) : (s.setJ j).i = s.i := rfl
@[simp] theorem State.setJ_j (j : Byte) (s : State) : (s.setJ j).j = j := rfl
@[simp] theorem State.setJ_ready (j : Byte) (s : State) : (s.setJ j).ready = s.ready := rfl
@[simp] theorem State.setJ_inbox (j : Byte) (s : State) : (s.setJ j).inbox = s.inbox := rfl
@[simp] theorem State.setJ_outbox (j : Byte) (s : State) : (s.setJ j).outbox = s.outbox := rfl
@[simp] theorem State.setJ_draws (j : Byte) (s : State) : (s.setJ j).draws = s.draws := rfl

@[simp] theorem State.setReady_S (b : Bool) (s : State) : (s.setReady b).S = s.S := rfl
@[simp] theorem State.setReady_i (b : Bool) (s : State) : (s.setReady b).i = s.i := rfl
@[simp] theorem State.setReady_j (b : Bool) (s : State) : (s.setReady b).j = s.j := rfl
@[simp] theorem State.setReady_ready (b : Bool) (s : State) : (s.setReady b).ready = b := rfl
@[simp] theorem State.setReady_inbox (b : Bool) (s : State) : (s.setReady b).inbox = s.inbox := rfl
@[simp] theorem State.setReady_outbox (b : Bool) (s : State) : (s.setReady b).outbox = s.outbox := rfl
@[simp] theorem State.setReady_draws (b : Bool) (s : State) : (s.setReady b).draws = s.draws := rfl

@[simp] theorem State.setInbox_S (rest : List HostEvent) (s : State) : (s.setInbox rest).S = s.S := rfl
@[simp] theorem State.setInbox_i (rest : List HostEvent) (s : State) : (s.setInbox rest).i = s.i := rfl
@[simp] theorem State.setInbox_j (rest : List HostEvent) (s : State) : (s.setInbox rest).j = s.j := rfl
@[simp] theorem State.setInbox_ready (rest : List HostEvent) (s : State) : (s.setInbox rest).ready = s.ready := rfl
@[simp] theorem State.setInbox_inbox (rest : List HostEvent) (s : State) : (s.setInbox rest).inbox = rest := rfl
@[simp] theorem State.setInbox_outbox (rest : List HostEvent) (s : State) : (s.setInbox rest).outbox = s.outbox := rfl
@[simp] theorem State.setInbox_draws (rest : List HostEvent) (s : State) : (s.setInbox rest).draws = s.draws := rfl

@[simp] theorem State.deliver_S (Q : Packet) (s : State) : (s.deliver Q).S = s.S := rfl
@[simp] theorem State.deliver_i (Q : Packet) (s : State) : (s.deliver Q).i = s.i := rfl
@[simp] theorem State.deliver_j (Q : Packet) (s : State) : (s.deliver Q).j = s.j := rfl
@[simp] theorem State.deliver_ready (Q : Packet) (s : State) : (s.deliver Q).ready = s.ready := rfl
@[simp] theorem State.deliver_inbox (Q : Packet) (s : State) : (s.deliver Q).inbox = s.inbox := rfl
@[simp] theorem State.deliver_outbox (Q : Packet) (s : State) : (s.deliver Q).outbox = s.outbox ++ [Q] := rfl
@[simp] theorem State.deliver_draws (Q : Packet) (s : State) : (s.deliver Q).draws = s.draws := rfl

@[simp] theorem State.countDraw_S (s : State) : (s.countDraw).S = s.S := rfl
@[simp] theorem State.countDraw_i (s : State) : (s.countDraw).i = s.i := rfl
@[simp] theorem State.countDraw_j (s : State) : (s.countDraw).j = s.j := rfl
@[simp] theorem State.countDraw_ready (s : State) : (s.countDraw).ready = s.ready := rfl
@[simp] theorem State.countDraw_inbox (s : State) : (s.countDraw).inbox = s.inbox := rfl
@[simp] theorem State.countDraw_outbox (s : State) : (s.countDraw).outbox = s.outbox := rfl
@[simp] theorem State.countDraw_draws (s : State) : (s.countDraw).draws = s.draws + 1 := rfl

end Sys2Proof.Machine
end

