-- ==== Sys2Proof/Laws/Ops.lean ====
section
/-! SUPPORT. What each shared operation does, said once: arithmetic, entries of `S`, the port, the error, the reset. -/

namespace Sys2Proof.Machine

open Sys2Proof.Safety

/-! ## Arithmetic -/

theorem add8_toNat (a b : Byte) : (add8 a b).toNat = (a.toNat + b.toNat) % 256 := BitVec.toNat_add a b

theorem add8_comm (a b : Byte) : add8 a b = add8 b a := BitVec.add_comm a b

theorem umod_lt (t : Nat) {n : Nat} (h : 1 ≤ n) : umod t n < n := Nat.mod_lt t h

/-! ## Entries of the array -/

/-- An array is determined by what its 256 entries read as. -/
theorem readS_ext {S T : Sbox} (h : ∀ a, readS S a = readS T a) : S = T := by
  apply Vector.ext
  intro n hn
  simpa [readS, BitVec.toNat_ofNat, Nat.mod_eq_of_lt hn] using h (BitVec.ofNat 8 n)

theorem readS_writeS (S : Sbox) (a v n : Byte) : readS (writeS S a v) n = if n = a then v else readS S n := by
  have h : a.toNat = n.toNat ↔ n = a := by rw [eq_comm]; exact BitVec.toNat_inj
  simp only [readS, writeS, Vector.getElem_set, h]

theorem readS_swap (S : Sbox) (a b n : Byte) :
    readS (swap S a b) n = if n = a then readS S b else if n = b then readS S a else readS S n := by
  simp only [swap, readS_writeS]
  by_cases hb : n = b
  · subst hb
    by_cases ha : n = a
    · subst ha; simp
    · simp [ha]
  · simp [hb]

@[simp] theorem readS_identityS (n : Byte) : readS identityS n = n := by
  simp [readS, identityS]

/-- Reading is one to one exactly when every value stands in exactly one entry. -/
theorem isPermutation_iff_injective (S : Sbox) : IsPermutation S ↔ Function.Injective (readS S) := by
  constructor
  · intro h a b hab
    obtain ⟨c, -, hc⟩ := h (readS S b)
    exact (hc a hab).trans (hc b rfl).symm
  · intro h v
    obtain ⟨a, ha⟩ := (Finite.injective_iff_surjective.mp h) v
    exact ⟨a, ha, fun b hb => h (hb.trans ha.symm)⟩

theorem isPermutation_identityS : IsPermutation identityS :=
  (isPermutation_iff_injective _).mpr fun a b h => by simpa using h

/-- The exchange of two entries keeps a permutation a permutation (10_state.md R11). -/
theorem isPermutation_swap {S : Sbox} (h : IsPermutation S) (a b : Byte) : IsPermutation (swap S a b) := by
  rw [isPermutation_iff_injective] at h ⊢
  intro m n hmn
  simp only [readS_swap] at hmn
  split_ifs at hmn <;> (have := h hmn; simp_all)

/-! ## The port, the error and the reset -/

theorem respond_ok (data : List Byte) (s : State) : respond (.ok data) s = s.deliver (0x00#8 :: data) := rfl

theorem raiseError_eq (e : EngineError) (s : State) : raiseError e s = s.deliver [statusOfError e] := rfl

@[simp] theorem resetEngine_ready (s : State) : (resetEngine s).ready = false := rfl

@[simp] theorem resetEngine_inbox (s : State) : (resetEngine s).inbox = s.inbox := rfl

@[simp] theorem resetEngine_outbox (s : State) : (resetEngine s).outbox = s.outbox := rfl

@[simp] theorem resetEngine_draws (s : State) : (resetEngine s).draws = s.draws + 1 := rfl

end Sys2Proof.Machine
end

