-- ==== Sys2Proof/Laws/Ksa.lean ====
section
/-! SUPPORT. What INIT can do, said once, and its rounds. -/

namespace Sys2Proof.Machine

open Sys2Proof.Safety

@[simp] theorem ksaRounds_zero (key : List Byte) : ksaRounds key 0 = (identityS, 0#8) := rfl

theorem ksaRounds_succ (key : List Byte) (t : Nat) :
    ksaRounds key (t + 1) = ksaRound key t (ksaRounds key t).1 (ksaRounds key t).2 := rfl

/-- What holds of the identity and index 0 before round 0, and is kept by every round, holds of the array that INIT loads and of
the index the last round leaves. -/
theorem ksaArray_induction {key : List Byte} (P : Nat → Sbox → Byte → Prop) (h0 : P 0 identityS 0#8)
    (hstep : ∀ t T jk, t < 256 → P t T jk → P (t + 1) (ksaRound key t T jk).1 (ksaRound key t T jk).2) :
    ∃ jk, P 256 (ksaArray key) jk := by
  have h : ∀ n, n ≤ 256 → P n (ksaRounds key n).1 (ksaRounds key n).2 := by
    intro n
    induction n with
    | zero => intro _; exact h0
    | succ n ih => intro hn; rw [ksaRounds_succ]; exact hstep n _ _ hn (ih (Nat.le_of_lt hn))
  unfold ksaArray
  generalize 256 = n at h ⊢
  exact ⟨_, h n (Nat.le_refl n)⟩

/-- Two keys that agree on the byte of every round leave the same array. -/
theorem ksaArray_congr {key key' : List Byte} (h : ∀ t, keyByte key t = keyByte key' t) :
    ksaArray key = ksaArray key' := by
  have hr : ∀ n, ksaRounds key n = ksaRounds key' n := by
    intro n
    induction n with
    | zero => rfl
    | succ n ih => simp only [ksaRounds_succ, ksaRound, ih, h]
  unfold ksaArray
  generalize 256 = n
  rw [hr]

theorem isPermutation_ksaArray (key : List Byte) : IsPermutation (ksaArray key) := by
  obtain ⟨-, h⟩ := ksaArray_induction (key := key) (fun _ T _ => IsPermutation T) isPermutation_identityS
    fun _ _ _ _ h => isPermutation_swap h _ _
  exact h

/-- An accepted key: the array of the 256 rounds is loaded and OK is answered. -/
theorem execInit_of_valid {key : List Byte} (h : ValidKey key) (s : State) :
    execInit key s = .next ((loadReady (ksaArray key) s).deliver [0x00#8]) := by
  have h1 : ¬ keyLength key < Config.klenMin := Nat.not_lt.mpr h.1
  have h2 : ¬ Config.klenMax < keyLength key := Nat.not_lt.mpr h.2
  rw [execInit, if_neg h1, if_neg h2, respond_ok]

/-- A key that is not accepted: the error is answered and nothing else happens. -/
theorem execInit_of_not_valid {key : List Byte} (h : ¬ ValidKey key) (s : State) :
    execInit key s = .next (s.deliver [0x01#8]) := by
  rw [execInit]
  by_cases h1 : keyLength key < Config.klenMin
  · rw [if_pos h1]; rfl
  · by_cases h2 : Config.klenMax < keyLength key
    · rw [if_neg h1, if_pos h2]; rfl
    · exact absurd ⟨Nat.not_lt.mp h1, Nat.not_lt.mp h2⟩ h

@[simp] theorem loadReady_S (T : Sbox) (s : State) : (loadReady T s).S = T := rfl
@[simp] theorem loadReady_i (T : Sbox) (s : State) : (loadReady T s).i = 0#8 := rfl
@[simp] theorem loadReady_j (T : Sbox) (s : State) : (loadReady T s).j = 0#8 := rfl
@[simp] theorem loadReady_ready (T : Sbox) (s : State) : (loadReady T s).ready = true := rfl
@[simp] theorem loadReady_inbox (T : Sbox) (s : State) : (loadReady T s).inbox = s.inbox := rfl
@[simp] theorem loadReady_outbox (T : Sbox) (s : State) : (loadReady T s).outbox = s.outbox := rfl
@[simp] theorem loadReady_draws (T : Sbox) (s : State) : (loadReady T s).draws = s.draws := rfl

end Sys2Proof.Machine
end

