-- ==== Sys2Proof/Laws/Listing.lean ====
section
/-! SUPPORT. What a listing presents, said once. -/

namespace Sys2Proof.Machine

/-- A listing presents packets exactly when one packet carries each of its commands, and they are then the commands' encodings, in
order. -/
theorem packetsOfListing_eq_some {ls : List ListingLine} {Ps : List Packet} :
    packetsOfListing ls = some Ps ↔
      (∀ c ∈ ls.flatMap expandLine, c.wellFormed = true) ∧ (ls.flatMap expandLine).map encode = Ps := by
  rw [packetsOfListing, ← List.all_eq_true]
  by_cases h : (ls.flatMap expandLine).all Instr.wellFormed = true
  · simp only [h, if_true, Option.some.injEq, true_and]
  · simp only [h, if_false, reduceCtorEq, false_and]

end Sys2Proof.Machine
end

