-- ==== Sys2Proof/Laws/PerInstr.lean ====
section
/-! SUPPORT. The statement made per command: a command's first packet byte is its opcode of spec/opcode_table.json, and the
packet is as long as its format says (30_encoding.md R53). -/

namespace Sys2Proof.Laws.PacketShape

/-- The opcode byte and the length of the packet that spells a command. -/
def Statement : Instr → Prop
  | .init key => (encode (.init key)).head? = some 0x01#8 ∧ (encode (.init key)).length = key.length + 1
  | .next count => (encode (.next count)).head? = some 0x02#8 ∧ (encode (.next count)).length = 5

theorem init (key : List Byte) : Statement (.init key) := ⟨rfl, rfl⟩

theorem next (count : Nat) : Statement (.next count) := ⟨rfl, rfl⟩

end Sys2Proof.Laws.PacketShape
end

