-- ==== Sys2Proof/Laws/Prga.lean ====
section
/-! SUPPORT. What NEXT can do, said once, and its rounds. -/

namespace Sys2Proof.Machine

open Sys2Proof.Safety

/-! ## One round, field by field -/

@[simp] theorem prgaRound_S (s : State) : (prgaRound s).1.S = nextS s := rfl
@[simp] theorem prgaRound_i (s : State) : (prgaRound s).1.i = nextI s := rfl
@[simp] theorem prgaRound_j (s : State) : (prgaRound s).1.j = nextJ s := rfl
@[simp] theorem prgaRound_ready (s : State) : (prgaRound s).1.ready = s.ready := rfl
@[simp] theorem prgaRound_inbox (s : State) : (prgaRound s).1.inbox = s.inbox := rfl
@[simp] theorem prgaRound_outbox (s : State) : (prgaRound s).1.outbox = s.outbox := rfl
@[simp] theorem prgaRound_draws (s : State) : (prgaRound s).1.draws = s.draws := rfl

theorem prgaRound_byte (s : State) : (prgaRound s).2 = readS (nextS s) (nextK s) := rfl

/-! ## Several rounds -/

@[simp] theorem prgaRounds_zero (s : State) : prgaRounds 0 s = (s, []) := rfl

theorem prgaRounds_succ (n : Nat) (s : State) :
    prgaRounds (n + 1) s =
      ((prgaRounds n (prgaRound s).1).1, (prgaRound s).2 :: (prgaRounds n (prgaRound s).1).2) := rfl

@[simp] theorem prgaRounds_ready (n : Nat) (s : State) : (prgaRounds n s).1.ready = s.ready := by
  induction n generalizing s with
  | zero => rfl
  | succ n ih => simp [prgaRounds_succ, ih]

@[simp] theorem prgaRounds_inbox (n : Nat) (s : State) : (prgaRounds n s).1.inbox = s.inbox := by
  induction n generalizing s with
  | zero => rfl
  | succ n ih => simp [prgaRounds_succ, ih]

@[simp] theorem prgaRounds_outbox (n : Nat) (s : State) : (prgaRounds n s).1.outbox = s.outbox := by
  induction n generalizing s with
  | zero => rfl
  | succ n ih => simp [prgaRounds_succ, ih]

@[simp] theorem prgaRounds_draws (n : Nat) (s : State) : (prgaRounds n s).1.draws = s.draws := by
  induction n generalizing s with
  | zero => rfl
  | succ n ih => simp [prgaRounds_succ, ih]

@[simp] theorem prgaRounds_length (n : Nat) (s : State) : (prgaRounds n s).2.length = n := by
  induction n generalizing s with
  | zero => rfl
  | succ n ih => simp [prgaRounds_succ, ih]

/-- `a + b` rounds are `a` rounds and then `b` more (41_prga_next.md R98). -/
theorem prgaRounds_add (a b : Nat) (s : State) :
    prgaRounds (a + b) s =
      ((prgaRounds b (prgaRounds a s).1).1, (prgaRounds a s).2 ++ (prgaRounds b (prgaRounds a s).1).2) := by
  induction a generalizing s with
  | zero => simp
  | succ a ih => rw [Nat.succ_add, prgaRounds_succ, prgaRounds_succ, ih]; simp

/-- The last of `n + 1` rounds, on the state that the first `n` leave. -/
theorem prgaRounds_succ_last (n : Nat) (s : State) :
    prgaRounds (n + 1) s =
      ((prgaRound (prgaRounds n s).1).1, (prgaRounds n s).2 ++ [(prgaRound (prgaRounds n s).1).2]) := by
  rw [prgaRounds_add]; rfl

/-! ## The command -/

theorem execNext_of_ready {s : State} (h : s.ready = true) (count : Nat) :
    execNext count s = .next ((prgaRounds count s).1.deliver (0x00#8 :: (prgaRounds count s).2)) := by
  simp only [execNext, h, if_true, respond_ok]

theorem execNext_of_not_ready {s : State} (h : s.ready = false) (count : Nat) :
    execNext count s = .next (s.deliver [0x02#8]) := by
  simp only [execNext, h, Bool.false_eq_true, if_false]; rfl

/-- The rounds see nothing but `S`, `i` and `j`: not the transcript, the events to come or the draws. -/
theorem prgaRounds_congr (n : Nat) {s t : State} (hS : s.S = t.S) (hi : s.i = t.i) (hj : s.j = t.j) :
    (prgaRounds n s).2 = (prgaRounds n t).2 ∧ (prgaRounds n s).1.S = (prgaRounds n t).1.S ∧
      (prgaRounds n s).1.i = (prgaRounds n t).1.i ∧ (prgaRounds n s).1.j = (prgaRounds n t).1.j := by
  induction n generalizing s t with
  | zero => exact ⟨rfl, hS, hi, hj⟩
  | succ n ih =>
    have hI : nextI s = nextI t := by simp only [nextI, hi]
    have hJ : nextJ s = nextJ t := by simp only [nextJ, hS, hj, hI]
    have hN : nextS s = nextS t := by simp only [nextS, hS, hI, hJ]
    have hK : nextK s = nextK t := by simp only [nextK, hN, hI, hJ]
    obtain ⟨hb, h1, h2, h3⟩ := ih (s := (prgaRound s).1) (t := (prgaRound t).1) hN hI hJ
    refine ⟨?_, h1, h2, h3⟩
    simp only [prgaRounds_succ, hb, prgaRound_byte, hN, hK]

end Sys2Proof.Machine
end

