-- ==== Sys2Proof/Laws/Step.lean ====
section
/-! SUPPORT. What `exec` and `step` can answer, said once. -/

namespace Sys2Proof.Machine

open Sys2Proof.Safety

theorem exec_init (key : List Byte) (s : State) : exec (.init key) s = execInit key s := rfl

theorem exec_next (count : Nat) (s : State) : exec (.next count) s = execNext count s := rfl

/-- The four things a command can do: load a key, refuse the key, generate, or refuse to generate. -/
theorem exec_cases (c : Instr) (s : State) :
    (∃ key, c = .init key ∧ ValidKey key ∧
      exec c s = .next ((loadReady (ksaArray key) s).deliver [0x00#8])) ∨
    (∃ key, c = .init key ∧ ¬ ValidKey key ∧ exec c s = .next (s.deliver [0x01#8])) ∨
    (∃ count, c = .next count ∧ s.ready = true ∧
      exec c s = .next ((prgaRounds count s).1.deliver (0x00#8 :: (prgaRounds count s).2))) ∨
    (∃ count, c = .next count ∧ s.ready = false ∧ exec c s = .next (s.deliver [0x02#8])) := by
  cases c with
  | init key =>
    by_cases h : ValidKey key
    · exact .inl ⟨key, rfl, h, execInit_of_valid h s⟩
    · exact .inr (.inl ⟨key, rfl, h, execInit_of_not_valid h s⟩)
  | next count =>
    cases h : s.ready with
    | true => exact .inr (.inr (.inl ⟨count, rfl, rfl, execNext_of_ready h count⟩))
    | false => exact .inr (.inr (.inr ⟨count, rfl, rfl, execNext_of_not_ready h count⟩))

theorem step_of_idle {s : State} (h : s.inbox = []) : step s = .next s := by
  simp only [step, fetch, h]

theorem step_of_reset {s : State} {rest : List HostEvent} (h : s.inbox = .reset :: rest) :
    step s = .next (resetEngine (s.setInbox rest)) := by
  simp only [step, fetch, h]

theorem step_of_command {s : State} {P : Packet} {rest : List HostEvent} {c : Instr}
    (h : s.inbox = .packet P :: rest) (hd : decode P = .command c) : step s = exec c (s.setInbox rest) := by
  simp only [step, fetch, h, hd]

theorem step_of_reserved {s : State} {P : Packet} {rest : List HostEvent} {why : Reserved}
    (h : s.inbox = .packet P :: rest) (hd : decode P = .reserved why) :
    step s = .refused (.reservedPacket why) := by
  simp only [step, fetch, h, hd]

/-- The four things a step can find at the port. -/
theorem inbox_cases (s : State) :
    s.inbox = [] ∨ (∃ rest, s.inbox = .reset :: rest) ∨
    (∃ P rest c, s.inbox = .packet P :: rest ∧ decode P = .command c) ∨
    (∃ P rest why, s.inbox = .packet P :: rest ∧ decode P = .reserved why) := by
  match h : s.inbox with
  | [] => exact .inl rfl
  | .reset :: rest => exact .inr (.inl ⟨rest, rfl⟩)
  | .packet P :: rest =>
    match hd : decode P with
    | .command c => exact .inr (.inr (.inl ⟨P, rest, c, rfl, hd⟩))
    | .reserved why => exact .inr (.inr (.inr ⟨P, rest, why, rfl, hd⟩))

/-! ## Runs of the machine behind the host's interface -/

theorem run_zero (s : State) : Host.Core.run Sys2Proof.core 0 s = .next s := rfl

theorem run_succ_of_next {s t : State} (k : Nat) (h : step s = .next t) :
    Host.Core.run Sys2Proof.core (k + 1) s = Host.Core.run Sys2Proof.core k t := by
  have h' : Sys2Proof.core.step s = .next t := h
  simp only [Host.Core.run, h']

theorem run_succ_of_refused {s : State} {r : Refusal} (k : Nat) (h : step s = .refused r) :
    Host.Core.run Sys2Proof.core (k + 1) s = .refused r := by
  have h' : Sys2Proof.core.step s = .refused r := h
  simp only [Host.Core.run, h']

end Sys2Proof.Machine
end

