-- ==== Sys2Proof/Tests/Slice0.lean ====
section
/-! SUPPORT. The model's own tests: the spec's vectors and hand calculations from its rules, the WellFormed smoke test, and a
witness for the hypotheses of every statement. -/

namespace Sys2Proof.Tests

open Sys2Proof Sys2Proof.Machine Sys2Proof.Safety

/-- A small state: the identity array, the given indices and flag, nothing delivered. -/
def at0 (i j : Byte) (ready : Bool) (inbox : List HostEvent) : State :=
  { S := identityS, i := i, j := j, ready := ready, inbox := inbox, outbox := [], draws := 0 }

/-- The key `01 02 03 04 05` of 95_test_vectors.md. -/
def k5 : List Byte := [0x01#8, 0x02#8, 0x03#8, 0x04#8, 0x05#8]

/-- The state that an outcome gives, the given one where it stops. -/
def stateOf (o : Host.Outcome State Fault Refusal) (s : State) : State :=
  match o with
  | .next t => t
  | _ => s

/-- Whether an outcome is a next state. -/
def isNext (o : Host.Outcome State Fault Refusal) : Bool :=
  match o with
  | .next _ => true
  | _ => false

/-! ## Well-formedness -/

/-- 30_encoding.md R54: the greatest count of one packet, and the first that does not fit. -/
theorem test_wellFormed_count :
    (Instr.next 4294967295).wellFormed = true ∧ (Instr.next 4294967296).wellFormed = false := by decide

/-! ## Decoding (95_test_vectors.md part B4; words written out from 30_encoding.md R53) -/

theorem test_decode_init_k5 :
    decode [0b00000001#8, 0x01#8, 0x02#8, 0x03#8, 0x04#8, 0x05#8] = .command (.init k5) := by decide

theorem test_decode_init_empty : decode [0b00000001#8] = .command (.init []) := by decide

theorem test_decode_next_65536 :
    decode [0b00000010#8, 0x00#8, 0x00#8, 0x01#8, 0x00#8] = .command (.next 65536) := by decide

theorem test_decode_next_10000000 :
    decode [0x02#8, 0x80#8, 0x96#8, 0x98#8, 0x00#8] = .command (.next 10000000) := by decide

theorem test_decode_reserved :
    decode [] = .reserved .emptyPacket ∧ decode [0x00#8] = .reserved (.unknownOpcode 0x00#8) ∧
    decode [0x03#8, 0x00#8] = .reserved (.unknownOpcode 0x03#8) ∧ decode [0x02#8] = .reserved (.nextLength 1) ∧
    decode [0x02#8, 0x08#8, 0x00#8, 0x00#8] = .reserved (.nextLength 4) ∧
    decode [0x02#8, 0x08#8, 0x00#8, 0x00#8, 0x00#8, 0x00#8] = .reserved (.nextLength 6) := by decide

theorem test_encode_next_300 :
    encode (.next 300) = [0x02#8, 0x2c#8, 0x01#8, 0x00#8, 0x00#8] := by decide

/-- The opcode-table words of one byte, and NEXT with all its bytes (log 7). -/
theorem test_table_words :
    decodeTableWord 8 0x01 = some (.init [0x00#8]) ∧ decodeTableWord 8 0x02 = some (.next 0) ∧
    decodeTableWord 40 0x0000012c02 = some (.next 300) ∧ decodeTableWord 24 0x020101 = some (.init [0x01#8, 0x02#8]) ∧
    decodeTableWord 8 0x03 = none := by decide

theorem test_placed_word_runs_first :
    isNext (step (State.reset.withFetchWord 8 0x01)) = true ∧
    isNext (step (State.reset.withFetchWord 8 0x02)) = true := by decide

/-! ## Listing (30_encoding.md R59, R60; the lines of its section 7) -/

theorem test_render_next : renderLine (.next 256) = ['N', 'E', 'X', 'T', ' ', '2', '5', '6'] := by decide +kernel

theorem test_parse_comment :
    parseLine ['I', 'N', 'I', 'T', ' ', ' ', '0', '1', ' ', 'f', 'f', ' ', ';', ' ', 'k'] =
      some (.init [0x01#8, 0xff#8]) := by decide +kernel

theorem test_source_call :
    sourceCall (.init [0x01#8, 0x3d#8]) =
      ['i', 'n', 'i', 't', 'i', 'a', 'l', 'i', 'z', 'e', '(', '[', '0', 'x', '0', '1', ',', '0', 'x', '3', 'd', ']',
        ')'] := by decide +kernel

theorem test_nextl_expands :
    expandLine (.nextl 4294967297) = [.next 4294967295, .next 2] := by decide +kernel

/-- 95_test_vectors.md P1: the packets of the source's vector as a listing. -/
theorem test_listing_p1 :
    packetsOfListing [.init k5, .next 8] =
      some [[0x01#8, 0x01#8, 0x02#8, 0x03#8, 0x04#8, 0x05#8], [0x02#8, 0x08#8, 0x00#8, 0x00#8, 0x00#8]] := by decide +kernel

/-- 30_encoding.md R54, log 15: no packet carries this count, so the listing presents nothing. -/
theorem test_listing_count_too_large : packetsOfListing [.next 4294967296] = none := by decide +kernel

/-! ## INIT -/

/-- 40_ksa_init.md section 6, rounds 0 and 1 of the key `01 02 03 04 05`: `jk` 1 then 3, and the exchanged entries. -/
theorem test_ksaRound_k5 :
    (ksaRounds k5 2).2 = 3#8 ∧ readS (ksaRounds k5 2).1 0#8 = 0x01#8 ∧ readS (ksaRounds k5 2).1 1#8 = 0x03#8 ∧
    readS (ksaRounds k5 2).1 3#8 = 0x00#8 := by decide +kernel

/-- 95_test_vectors.md V13, round 2: `(255 + 02 + 255) mod 256 = 0`, a sum that wraps twice. -/
theorem test_ksaRound_wraps : (ksaRound [0xff#8] 2 identityS 0xff#8).2 = 0#8 := by decide +kernel

/-- 95_test_vectors.md V2 and V1: INIT `01 02 03 04 05` leaves `i = 0`, `j = 0` and the dumped array (its first eight entries,
and its last), and NEXT 8 then returns the source's eight bytes and leaves `i = 8`, `j = 150`. -/
theorem test_source_vector :
    let t := stateOf (exec (.init k5) (at0 7#8 9#8 false [])) (at0 0#8 0#8 false [])
    let u := stateOf (exec (.next 8) t) t
    (t.i, t.j, t.ready, [0, 1, 2, 3, 4, 5, 6, 7, 255].map (fun n => readS t.S (BitVec.ofNat 8 n))) =
      (0#8, 0#8, true, [0x01#8, 0x03#8, 0x08#8, 0xc9#8, 0x15#8, 0x1b#8, 0x23#8, 0x43#8, 0x58#8]) ∧
    (u.i, u.j, u.outbox) = (8#8, 150#8,
      [[0x00#8], [0x00#8, 0xb2#8, 0x39#8, 0x63#8, 0x05#8, 0xf0#8, 0x3d#8, 0xc0#8, 0x27#8]]) := by decide +kernel

/-- 95_test_vectors.md V34: INIT of the empty key on a Ready engine answers `01` and changes nothing. -/
theorem test_init_empty_when_ready :
    exec (.init []) (at0 3#8 14#8 true []) =
      .next { at0 3#8 14#8 true [] with outbox := [[0x01#8]] } := by rfl

/-- 95_test_vectors.md V33: a key of 257 bytes answers `01` and leaves the engine Uninitialized. -/
theorem test_init_257_bytes :
    (stateOf (exec (.init (List.replicate 257 0x00#8)) (at0 0#8 0#8 false [])) (at0 0#8 0#8 true [])).ready = false ∧
    (stateOf (exec (.init (List.replicate 257 0x00#8)) (at0 0#8 0#8 false [])) (at0 0#8 0#8 true [])).outbox =
      [[0x01#8]] := by decide +kernel

/-! ## NEXT -/

/-- 95_test_vectors.md V20: `i = j = 22`, the exchange changes nothing and the byte is `S[0x98] = 17`. -/
theorem test_next_equal_indices :
    let s := (at0 21#8 74#8 true []).setS (writeS (writeS identityS 22#8 0xcc#8) 0x98#8 0x17#8)
    let t := stateOf (exec (.next 1) s) s
    (t.i, t.j, readS t.S 22#8, t.outbox) = (22#8, 22#8, 0xcc#8, [[0x00#8, 0x17#8]]) := by decide +kernel

/-- 95_test_vectors.md V21: `k = i = 34`, the byte is what the exchange put there. -/
theorem test_next_k_is_i :
    let s := (at0 33#8 152#8 true []).setS (writeS (writeS identityS 34#8 0x6f#8) 7#8 0xb3#8)
    let t := stateOf (exec (.next 1) s) s
    (t.i, t.j, readS t.S 7#8, t.outbox) = (34#8, 7#8, 0x6f#8, [[0x00#8, 0xb3#8]]) := by decide +kernel

/-- 95_test_vectors.md V22: `k = j = 32`, the byte is what the exchange put there. -/
theorem test_next_k_is_j :
    let s := (at0 39#8 224#8 true []).setS (writeS (writeS identityS 40#8 0x40#8) 32#8 0xe0#8)
    let t := stateOf (exec (.next 1) s) s
    (t.i, t.j, t.outbox) = (40#8, 32#8, [[0x00#8, 0x40#8]]) := by decide +kernel

/-- 41_prga_next.md R93: from 255 the index goes to 0. On the identity, by hand: `i = 0`, `j = 5 + 0 = 5`, entries 0 and 5
exchanged, `k = 5 + 0`, byte `S[5] = 0`. -/
theorem test_next_i_wraps :
    let t := stateOf (exec (.next 1) (at0 255#8 5#8 true [])) (at0 0#8 0#8 true [])
    (t.i, t.j, t.outbox) = (0#8, 5#8, [[0x00#8, 0x00#8]]) := by decide +kernel

/-- 95_test_vectors.md V32: NEXT 0 just after reset answers `02`. -/
theorem test_next_zero_before_init :
    (stateOf (exec (.next 0) State.reset) State.reset).outbox = [[0x02#8]] := by decide

/-! ## Witnesses: a state and operands that meet the hypotheses of each statement -/

theorem validKey_one : ValidKey [0x01#8] := by unfold ValidKey; decide

theorem validKey_256 : ValidKey (List.replicate 256 0x00#8) := by
  rw [ValidKey, List.length_replicate]; decide

theorem not_validKey_empty : ¬ ValidKey [] := by unfold ValidKey; decide

theorem not_validKey_257 : ¬ ValidKey (List.replicate 257 0x00#8) := by
  rw [ValidKey, List.length_replicate]; decide

theorem test_witness_UmodIsTheRemainder : (1 : Nat) ≤ 1 ∧ (1 : Nat) ≤ 256 := by decide

theorem test_witness_KeyReadIsInRange :
    (ValidKey [0x01#8] ∧ 255 < 256) ∧ ValidKey (List.replicate 256 0x00#8) ∧ 0 < 256 :=
  ⟨⟨validKey_one, by decide⟩, validKey_256, by decide⟩

theorem test_witness_DecodeOfEncode :
    (Instr.next 4294967295).wellFormed = true ∧ (Instr.init []).wellFormed = true := by decide

theorem test_witness_EncodeOfDecode :
    decode [0x02#8, 0x08#8, 0x00#8, 0x00#8, 0x00#8] = .command (.next 8) := by decide

theorem test_witness_OpcodeMapIsTheTable :
    (at0 0#8 0#8 true [.packet [0x02#8]]).inbox = .packet [0x02#8] :: [] ∧
    decode [0x02#8] = .reserved (.nextLength 1) := by decide

theorem test_witness_ListingLineReadsBack :
    ListingLine.init [] ≠ .rekey [] ∧ ListingLine.rekey [0x00#8] ≠ .rekey [] := by decide

theorem test_witness_PseudoInstructionsExpand : (at0 0#8 0#8 true []).ready = true := by decide

theorem test_witness_StepRunsThePresentedCommand :
    (at0 0#8 0#8 true [.packet [0x01#8]]).inbox = .packet [0x01#8] :: [] ∧
    decode [0x01#8] = .command (.init []) ∧ (Instr.init []).wellFormed = true := by decide

theorem test_witness_IdleEngineHoldsItsState : State.reset.inbox = [] := by rfl

theorem test_witness_ResetEventUninitializes :
    (at0 0#8 0#8 true [.reset, .reset]).inbox = .reset :: [.reset] := by decide

theorem test_witness_RunExecutesCommandsInOrder :
    (∀ c ∈ [Instr.init k5, Instr.next 8], c.wellFormed = true) ∧
    (at0 0#8 0#8 false (presented [.init k5, .next 8])).inbox = presented [.init k5, .next 8] := by decide

theorem test_witness_OverlongKeyFails : 256 < (List.replicate 257 0x00#8).length := by decide +kernel

theorem test_witness_InitComputesTheKeySchedule : ValidKey [0x01#8] ∧ ValidKey (List.replicate 256 0x00#8) :=
  ⟨validKey_one, validKey_256⟩

theorem test_witness_InitIsDeterminedByTheKey : ValidKey (List.replicate 256 0x00#8) := validKey_256

theorem test_witness_RekeyLeavesNoResidue : ValidKey [0x01#8] := validKey_one

theorem test_witness_RepeatedKeyIsTheSameKey :
    (1 ≤ 256 ∧ 1 ≤ [0x01#8].length ∧ 256 * [0x01#8].length ≤ 256) ∧
    (1 ≤ 1 ∧ 1 ≤ k5.length ∧ 1 * k5.length ≤ 256) := by decide

theorem test_witness_InitFrame :
    (∃ t, exec (.init [0x01#8]) (at0 0#8 0#8 false []) = .next t) ∧
    (∃ t, exec (.init []) (at0 0#8 0#8 true []) = .next t) ∧ ¬ ValidKey [] :=
  ⟨⟨_, execInit_of_valid validKey_one _⟩, ⟨_, execInit_of_not_valid not_validKey_empty _⟩, not_validKey_empty⟩

theorem test_witness_NextBeforeInitFails : State.reset.ready = false := by rfl

theorem test_witness_NextOfZeroChangesNothing : (at0 255#8 0#8 true []).ready = true := by decide

theorem test_witness_EachRoundFollowsTheFiveSteps : (at0 255#8 255#8 true []).ready = true := by decide

theorem test_witness_NextComputesTheKeystream :
    (at0 0#8 0#8 true []).ready = true ∧ Represents (at0 0#8 0#8 true []) ⟨fun n => n, 0, 0⟩ :=
  ⟨rfl, fun a => by simp [at0], rfl, rfl⟩

theorem test_witness_SplitRequestsContinueTheKeystream : (at0 1#8 2#8 true []).ready = true := by decide

theorem test_witness_EqualIndicesLeaveTheArray :
    (at0 0#8 0#8 true []).ready = true ∧
    add8 (at0 0#8 0#8 true []).j (readS (at0 0#8 0#8 true []).S (add8 (at0 0#8 0#8 true []).i 1#8)) =
      add8 (at0 0#8 0#8 true []).i 1#8 := by decide +kernel

theorem test_witness_ByteIsReadAfterTheSwap_k_is_i :
    (at0 0#8 255#8 true []).ready = true ∧ 1#8 = add8 (at0 0#8 255#8 true []).i 1#8 ∧
    0#8 = add8 (at0 0#8 255#8 true []).j (readS (at0 0#8 255#8 true []).S 1#8) ∧
    1#8 = add8 (readS (at0 0#8 255#8 true []).S 1#8) (readS (at0 0#8 255#8 true []).S 0#8) := by decide +kernel

theorem test_witness_ByteIsReadAfterTheSwap_k_is_j :
    (at0 255#8 255#8 true []).ready = true ∧ 0#8 = add8 (at0 255#8 255#8 true []).i 1#8 ∧
    255#8 = add8 (at0 255#8 255#8 true []).j (readS (at0 255#8 255#8 true []).S 0#8) ∧
    255#8 = add8 (readS (at0 255#8 255#8 true []).S 0#8) (readS (at0 255#8 255#8 true []).S 255#8) := by decide +kernel

theorem test_witness_NextFrame :
    (∃ t, exec (.next 1) (at0 0#8 0#8 true []) = .next t) ∧ 2#8 ∉ storedAddresses 1 (at0 0#8 0#8 true []) ∧
    (∃ t, exec (.next 0) (at0 0#8 0#8 true []) = .next t) ∧
    (∃ t, exec (.next 1) (at0 0#8 0#8 false []) = .next t) ∧ (at0 0#8 0#8 false []).ready = false :=
  ⟨⟨_, execNext_of_ready rfl 1⟩, by decide +kernel, ⟨_, execNext_of_ready rfl 0⟩, ⟨_, execNext_of_not_ready rfl 1⟩, rfl⟩

theorem test_witness_IndexIAdvancesOncePerByte :
    ValidKey (List.replicate 256 0x00#8) ∧ (at0 255#8 0#8 true []).ready = true ∧
    Fails (.init (List.replicate 257 0x00#8)) (at0 255#8 0#8 true []) ∧ Fails (.next 0) (at0 255#8 0#8 false []) ∧
    (at0 255#8 0#8 true []).inbox = [] :=
  ⟨validKey_256, rfl, not_validKey_257, rfl, rfl⟩

theorem test_witness_IndexJFollowsTheArray : ValidKey [0x01#8] ∧ (at0 255#8 255#8 true []).ready = true :=
  ⟨validKey_one, rfl⟩

theorem test_witness_IndexICountsTheBytes : ValidKey (List.replicate 256 0x00#8) := validKey_256

theorem test_witness_NextKeepsThePermutation :
    (at0 0#8 0#8 true []).ready = true ∧ IsPermutation (at0 0#8 0#8 true []).S := ⟨rfl, isPermutation_identityS⟩

theorem test_witness_StepKeepsThePermutation :
    PermutationWhenReady (at0 0#8 0#8 true [.reset]) ∧ ∃ t, step (at0 0#8 0#8 true [.reset]) = .next t :=
  ⟨fun _ => isPermutation_identityS, _, step_of_reset rfl⟩

theorem test_witness_ReadyChangesOnlyByResetAndInit :
    (∃ t, step (at0 0#8 0#8 true [.reset]) = .next t ∧ (at0 0#8 0#8 true [.reset]).ready = true ∧ t.ready = false) ∧
    ∃ t, step (at0 0#8 0#8 false [.packet [0x01#8, 0x01#8]]) = .next t ∧
      (at0 0#8 0#8 false [.packet [0x01#8, 0x01#8]]).ready = false ∧ t.ready = true :=
  ⟨⟨_, step_of_reset rfl, rfl, rfl⟩,
    ⟨_, (step_of_command rfl (decode_opInit [0x01#8])).trans (execInit_of_valid validKey_one _), rfl, rfl⟩⟩

theorem test_witness_FailedCommandChangesNothing :
    Fails (.init []) (at0 3#8 14#8 true []) ∧ Fails (.init (List.replicate 257 0x00#8)) State.reset ∧
    Fails (.next 0) State.reset := ⟨not_validKey_empty, not_validKey_257, rfl⟩

theorem test_witness_ErrorLeavesNoTrace : Fails (.init []) (at0 3#8 14#8 true []) := not_validKey_empty

theorem test_witness_KeystreamNeedsOneSuccessfulInit : State.reset.ready = false ∧ ValidKey k5 :=
  ⟨rfl, by unfold ValidKey; decide⟩

theorem test_witness_StepKeepsWhatTheHostCanTell :
    SameToHost (at0 0#8 0#8 false [.reset]) (at0 1#8 2#8 false [.reset]) ∧
    SameToHost (at0 1#8 2#8 true []) (at0 1#8 2#8 true []) :=
  ⟨⟨rfl, rfl, rfl, fun h => by simp [at0] at h⟩, rfl, rfl, rfl, fun _ => ⟨rfl, rfl, rfl⟩⟩

theorem test_witness_ResponsesDependOnTheCommandsAlone :
    State.reset.ready = false ∧ (at0 1#8 2#8 false []).ready = false ∧
    State.reset.inbox = (at0 1#8 2#8 false []).inbox ∧ State.reset.outbox = (at0 1#8 2#8 false []).outbox :=
  ⟨rfl, rfl, rfl, rfl⟩

theorem test_witness_EngineComputesRc4 :
    ValidKey [0x01#8] ∧
    (at0 0#8 0#8 false [.packet [0x01#8, 0x01#8], .packet [0x02#8, 0x08#8, 0x00#8, 0x00#8, 0x00#8]]).inbox =
      .packet (0x01#8 :: [0x01#8]) :: .packet [0x02#8, 0x08#8, 0x00#8, 0x00#8, 0x00#8] :: [] :=
  ⟨validKey_one, rfl⟩

end Sys2Proof.Tests
end

