-- ==== Sys2Proof/Proofs/SameToHost.lean ====
section
/-! What the host cannot tell apart stays so: under each operation, under a command, under a step and along a run
(10_state.md R23). -/

namespace Sys2Proof.Safety

open Sys2Proof.Machine

variable {s t : State}

/-- Uninitialized states with the same port: `S`, `i`, `j` and the draws do not count. -/
theorem SameToHost.of_not_ready (hs : s.ready = false) (ht : t.ready = false) (hin : s.inbox = t.inbox)
    (hout : s.outbox = t.outbox) : SameToHost s t :=
  ⟨hs.trans ht.symm, hin, hout, fun h => by simp [hs] at h⟩

theorem SameToHost.ready_eq (h : SameToHost s t) : s.ready = t.ready := h.1

theorem SameToHost.inbox_eq (h : SameToHost s t) : s.inbox = t.inbox := h.2.1

theorem SameToHost.setInbox (h : SameToHost s t) (rest : List HostEvent) :
    SameToHost (s.setInbox rest) (t.setInbox rest) := by
  obtain ⟨hr, -, hout, hSij⟩ := h
  exact ⟨hr, rfl, hout, hSij⟩

theorem SameToHost.deliver (h : SameToHost s t) (Q : Packet) : SameToHost (s.deliver Q) (t.deliver Q) := by
  obtain ⟨hr, hin, hout, hSij⟩ := h
  exact ⟨hr, hin, by simp [hout], hSij⟩

/-- A reset draws new contents for `S`, `i`, `j`, perhaps others in the one state than in the other; both are then
Uninitialized. -/
theorem SameToHost.resetEngine (h : SameToHost s t) : SameToHost (resetEngine s) (resetEngine t) := by
  obtain ⟨-, hin, hout, -⟩ := h
  exact .of_not_ready rfl rfl hin hout

theorem SameToHost.loadReady (h : SameToHost s t) (T : Sbox) : SameToHost (loadReady T s) (loadReady T t) := by
  obtain ⟨-, hin, hout, -⟩ := h
  exact ⟨rfl, hin, hout, fun _ => ⟨rfl, rfl, rfl⟩⟩

/-- On Ready states the rounds give the same bytes and keep the states alike. -/
theorem SameToHost.prgaRounds (h : SameToHost s t) (hs : s.ready = true) (n : Nat) :
    (prgaRounds n s).2 = (prgaRounds n t).2 ∧ SameToHost (prgaRounds n s).1 (prgaRounds n t).1 := by
  obtain ⟨hr, hin, hout, hSij⟩ := h
  obtain ⟨hS, hi, hj⟩ := hSij hs
  obtain ⟨hdata, hSij'⟩ := prgaRounds_congr n hS hi hj
  exact ⟨hdata, by simp [hr], by simp [hin], by simp [hout], fun _ => hSij'⟩

/-- Any command: INIT writes what depends on the key alone, and NEXT reads `S`, `i`, `j` in the Ready state only. -/
theorem SameToHost.sameOutcome_exec (h : SameToHost s t) (c : Instr) : SameOutcomeToHost (exec c s) (exec c t) := by
  cases c with
  | init key =>
    rw [exec_init, exec_init]
    by_cases hk : ValidKey key
    · rw [execInit_of_valid hk, execInit_of_valid hk]
      exact (h.loadReady _).deliver _
    · rw [execInit_of_not_valid hk, execInit_of_not_valid hk]
      exact h.deliver _
  | next count =>
    rw [exec_next, exec_next]
    have hr := h.ready_eq
    cases hs : s.ready with
    | false =>
      rw [execNext_of_not_ready hs, execNext_of_not_ready (hr.symm.trans hs)]
      exact h.deliver _
    | true =>
      obtain ⟨hdata, hsame⟩ := h.prgaRounds hs count
      rw [execNext_of_ready hs, execNext_of_ready (hr.symm.trans hs), hdata]
      exact hsame.deliver _

/-- One step, by what the port finds: the same event in both states. -/
theorem SameToHost.sameOutcome_step (h : SameToHost s t) : SameOutcomeToHost (step s) (step t) := by
  have hin := h.inbox_eq
  obtain hs | ⟨rest, hs⟩ | ⟨P, rest, c, hs, hd⟩ | ⟨P, rest, why, hs, hd⟩ := inbox_cases s
  · rw [step_of_idle hs, step_of_idle (hin.symm.trans hs)]
    exact h
  · rw [step_of_reset hs, step_of_reset (hin.symm.trans hs)]
    exact (h.setInbox rest).resetEngine
  · rw [step_of_command hs hd, step_of_command (hin.symm.trans hs) hd]
    exact (h.setInbox rest).sameOutcome_exec c
  · rw [step_of_reserved hs hd, step_of_reserved (hin.symm.trans hs) hd]
    exact rfl

/-- Outcomes that the host cannot tell apart are two next states or one refusal; there is no fault (log 12). -/
theorem SameOutcomeToHost.cases {o o' : Host.Outcome State Fault Refusal} (h : SameOutcomeToHost o o') :
    (∃ s t, o = .next s ∧ o' = .next t ∧ SameToHost s t) ∨ (∃ r, o = .refused r ∧ o' = .refused r) := by
  match o, o', h with
  | .next s, .next t, h => exact .inl ⟨s, t, rfl, rfl, h⟩
  | .refused r, .refused _, h => exact .inr ⟨r, rfl, congrArg _ (Eq.symm h)⟩

/-- A run of any number of steps. -/
theorem SameToHost.sameOutcome_run (h : SameToHost s t) (n : Nat) :
    SameOutcomeToHost (Host.Core.run Sys2Proof.core n s) (Host.Core.run Sys2Proof.core n t) := by
  induction n generalizing s t with
  | zero => exact h
  | succ n ih =>
    obtain ⟨s', t', hs, ht, h'⟩ | ⟨r, hs, ht⟩ := h.sameOutcome_step.cases
    · rw [run_succ_of_next n hs, run_succ_of_next n ht]
      exact ih h'
    · rw [run_succ_of_refused n hs, run_succ_of_refused n ht]
      exact rfl

end Sys2Proof.Safety
end

