-- ==== Sys2Proof/Proofs/Scope.lean ====
section
/-! The statements of 00_scope.md: determinism (R5), `add8` (R6) and `swap` (R8). -/

namespace Sys2Proof.Machine

open Sys2Proof.Safety

/-- R8: an exchange with equal indices changes nothing. -/
@[simp] theorem swap_self (S : Sbox) (a : Byte) : swap S a a = S := by
  apply readS_ext
  intro n
  rw [readS_swap]
  by_cases hn : n = a
  · rw [if_pos hn, hn]
  · rw [if_neg hn, if_neg hn]

/-- R6: a three-term sum reduced after each addition is the sum reduced once. -/
theorem add8_add8_toNat (a b c : Byte) : (add8 (add8 a b) c).toNat = (a.toNat + b.toNat + c.toNat) % 256 := by
  rw [add8_toNat, add8_toNat, Nat.mod_add_mod]

/-- Settles O49: Uninitialized states with the same port are alike to the host, and a run keeps them so. -/
theorem responsesDependOnTheCommandsAlone : Obligations.ResponsesDependOnTheCommandsAlone := by
  intro n s t hs ht hin hout
  exact (SameToHost.of_not_ready hs ht hin hout).sameOutcome_run n

/-- Settles O1, by the sum of two bytes as a number, used once and twice. -/
theorem addReducesModulo256 : Obligations.AddReducesModulo256 :=
  fun a b c => ⟨add8_toNat a b, add8_add8_toNat a b c⟩

/-- Settles O3, by what each entry of an exchanged array reads as. -/
theorem swapExchangesTwoEntries : Obligations.SwapExchangesTwoEntries :=
  fun S a b => ⟨readS_swap S a b, swap_self S a⟩

end Sys2Proof.Machine
end

