-- ==== Sys2Proof/Proofs/Permutation.lean ====
section
/-! While Ready, `S` is a permutation: under each operation, under a command and under a step (10_state.md R11). The rounds of
NEXT only exchange entries, and the array that INIT loads is itself made by exchanges from the identity. -/

namespace Sys2Proof.Machine

open Sys2Proof.Safety

/-- Step 3 of a round is one exchange (41_prga_next.md R95). -/
theorem isPermutation_nextS {s : State} (h : IsPermutation s.S) : IsPermutation (nextS s) :=
  isPermutation_swap h _ _

/-- Any number of rounds keeps a permutation a permutation. -/
theorem isPermutation_prgaRounds {s : State} (h : IsPermutation s.S) (n : Nat) :
    IsPermutation (prgaRounds n s).1.S := by
  induction n generalizing s with
  | zero => exact h
  | succ n ih =>
    rw [prgaRounds_succ]
    exact ih (s := (prgaRound s).1) (isPermutation_nextS h)

end Sys2Proof.Machine

namespace Sys2Proof.Safety

open Sys2Proof.Machine

variable {s t : State}

/-- The invariant asks nothing of an Uninitialized state. -/
theorem PermutationWhenReady.of_not_ready (h : s.ready = false) : PermutationWhenReady s :=
  fun hr => absurd (h.symm.trans hr) Bool.false_ne_true

/-- Taking an event off the list touches neither `S` nor `ready`. -/
theorem PermutationWhenReady.setInbox (h : PermutationWhenReady s) (rest : List HostEvent) :
    PermutationWhenReady (s.setInbox rest) := h

/-- Answering touches neither `S` nor `ready`. -/
theorem PermutationWhenReady.deliver (h : PermutationWhenReady s) (Q : Packet) :
    PermutationWhenReady (s.deliver Q) := h

/-- A reset draws an array that need not be a permutation, and clears `ready` (10_state.md R22). -/
theorem permutationWhenReady_resetEngine (s : State) : PermutationWhenReady (resetEngine s) :=
  .of_not_ready (resetEngine_ready s)

theorem permutationWhenReady_loadReady (key : List Byte) (s : State) :
    PermutationWhenReady (loadReady (ksaArray key) s) :=
  fun _ => isPermutation_ksaArray key

theorem PermutationWhenReady.prgaRounds (h : PermutationWhenReady s) (n : Nat) :
    PermutationWhenReady (prgaRounds n s).1 := by
  intro hr
  rw [prgaRounds_ready] at hr
  exact isPermutation_prgaRounds (h hr) n

/-- Any command: a key is loaded, the rounds run, or only an error is answered. -/
theorem PermutationWhenReady.exec {c : Instr} (h : PermutationWhenReady s) (he : exec c s = .next t) :
    PermutationWhenReady t := by
  obtain ⟨key, -, -, hc⟩ | ⟨-, -, -, hc⟩ | ⟨count, -, -, hc⟩ | ⟨-, -, -, hc⟩ := exec_cases c s <;>
    obtain rfl := Host.Outcome.next.inj (hc.symm.trans he)
  · exact (permutationWhenReady_loadReady key s).deliver _
  · exact h.deliver _
  · exact (h.prgaRounds count).deliver _
  · exact h.deliver _

/-- One step, by what the port finds. A reserved packet answers no next state. -/
theorem PermutationWhenReady.step (h : PermutationWhenReady s) (hst : step s = .next t) :
    PermutationWhenReady t := by
  obtain hs | ⟨rest, hs⟩ | ⟨P, rest, c, hs, hd⟩ | ⟨P, rest, why, hs, hd⟩ := inbox_cases s
  · obtain rfl := Host.Outcome.next.inj ((step_of_idle hs).symm.trans hst)
    exact h
  · obtain rfl := Host.Outcome.next.inj ((step_of_reset hs).symm.trans hst)
    exact permutationWhenReady_resetEngine _
  · exact (h.setInbox rest).exec ((step_of_command hs hd).symm.trans hst)
  · rw [step_of_reserved hs hd] at hst
    exact nomatch hst

end Sys2Proof.Safety
end

