-- ==== Sys2Proof/Proofs/Registers.lean ====
section
/-! The statements of 10_state.md: the permutation invariant (R11) and the index register `j` (R13). -/

namespace Sys2Proof.Machine

open Sys2Proof.Safety

/-- R13 for one round: the entry is the one at the new `i`, in the array before the round's exchange. -/
theorem prgaRound_j_eq_add8 (s : State) :
    (prgaRound s).1.j = add8 s.j (readS s.S (prgaRound s).1.i) := rfl

/-- R13 for the last of `n + 1` rounds. -/
theorem prgaRounds_succ_j (n : Nat) (s : State) :
    (prgaRounds (n + 1) s).1.j =
      add8 (prgaRounds n s).1.j (readS (prgaRounds n s).1.S (prgaRounds (n + 1) s).1.i) := by
  rw [prgaRounds_succ_last]
  exact prgaRound_j_eq_add8 _

/-- Settles O38: every event the port can find keeps the invariant. -/
theorem stepKeepsThePermutation : Obligations.StepKeepsThePermutation :=
  fun _ _ h hst => h.step hst

/-- Settles O35: INIT loads 0, and the rounds of `NEXT (n + 1)` are those of `NEXT n` and one more. -/
theorem indexJFollowsTheArray : Obligations.IndexJFollowsTheArray := by
  constructor
  · intro key s hk
    exact ⟨_, execInit_of_valid hk s, rfl⟩
  · intro n s hs
    refine ⟨_, _, execNext_of_ready hs n, execNext_of_ready hs (n + 1), ?_, prgaRounds_succ_j n s⟩
    rintro rfl
    rfl

end Sys2Proof.Machine
end

