-- ==== Sys2Proof/Proofs/Packets.lean ====
section
/-! The statements of 30_encoding.md on the packets of both directions: the opcode map of the command packets (R57) and the
status byte of the response packets (R56). -/

namespace Sys2Proof

/-- The packets that the opcode map gives to neither command (30_encoding.md R57). -/
def IsReservedPacket (P : Packet) : Prop :=
  P = [] ∨ (∃ op rest, P = op :: rest ∧ op ≠ 0x01#8 ∧ op ≠ 0x02#8) ∨ (∃ rest, P = 0x02#8 :: rest ∧ P.length ≠ 5)

theorem decode_next (c0 c1 c2 c3 : Byte) :
    decode [0x02#8, c0, c1, c2, c3] = .command (.next (assembleCount c0 c1 c2 c3)) := rfl

theorem decode_of_isReservedPacket {P : Packet} (h : IsReservedPacket P) : ∃ why, decode P = .reserved why := by
  obtain rfl | ⟨op, rest, rfl, h1, h2⟩ | ⟨rest, rfl, hl⟩ := h
  · exact ⟨_, decode_nil⟩
  · exact ⟨_, decode_other rest h1 h2⟩
  · exact ⟨_, (decode_opNext rest).trans (decodeNext_of_length fun h4 => hl (congrArg (· + 1) h4))⟩

/-- The three rows of the opcode map: every packet has the shape of one of them (30_encoding.md R57). -/
theorem packet_cases (P : Packet) :
    (∃ key, P = 0x01#8 :: key) ∨ (∃ c0 c1 c2 c3, P = [0x02#8, c0, c1, c2, c3]) ∨ IsReservedPacket P := by
  obtain _ | ⟨op, rest⟩ := P
  · exact .inr (.inr (.inl rfl))
  by_cases h1 : op = 0x01#8
  · exact .inl ⟨rest, h1 ▸ rfl⟩
  by_cases h2 : op = 0x02#8
  · subst h2
    by_cases hl : rest.length = 4
    · obtain ⟨c0, c1, c2, c3, rfl⟩ := List.length_eq_four.mp hl
      exact .inr (.inl ⟨c0, c1, c2, c3, rfl⟩)
    · exact .inr (.inr (.inr (.inr ⟨rest, rfl, fun h5 => hl (Nat.succ.inj h5)⟩)))
  · exact .inr (.inr (.inr (.inl ⟨op, rest, rfl, h1, h2⟩)))

theorem decode_eq_init_iff (P : Packet) (key : List Byte) :
    decode P = .command (.init key) ↔ P = 0x01#8 :: key := by
  refine ⟨fun h => ?_, fun h => h ▸ decode_opInit key⟩
  obtain ⟨key', rfl⟩ | ⟨c0, c1, c2, c3, rfl⟩ | hres := packet_cases P
  · cases h
    rfl
  · cases h
  · obtain ⟨why, hw⟩ := decode_of_isReservedPacket hres
    cases hw.symm.trans h

theorem decode_eq_next_iff (P : Packet) (count : Nat) :
    decode P = .command (.next count) ↔
      ∃ c0 c1 c2 c3 : Byte, P = [0x02#8, c0, c1, c2, c3] ∧ count = assembleCount c0 c1 c2 c3 := by
  constructor
  · intro h
    obtain ⟨key, rfl⟩ | ⟨c0, c1, c2, c3, rfl⟩ | hres := packet_cases P
    · cases h
    · cases h
      exact ⟨c0, c1, c2, c3, rfl, rfl⟩
    · obtain ⟨why, hw⟩ := decode_of_isReservedPacket hres
      cases hw.symm.trans h
  · rintro ⟨c0, c1, c2, c3, rfl, rfl⟩
    exact decode_next c0 c1 c2 c3

theorem decode_eq_reserved_iff (P : Packet) : (∃ why, decode P = .reserved why) ↔ IsReservedPacket P := by
  refine ⟨fun ⟨why, hw⟩ => ?_, decode_of_isReservedPacket⟩
  obtain ⟨key, rfl⟩ | ⟨c0, c1, c2, c3, rfl⟩ | hres := packet_cases P
  · cases hw
  · cases hw
  · exact hres

end Sys2Proof

namespace Sys2Proof.Machine

open Sys2Proof.Safety

/-- The keys INIT does not accept: the empty key (40_ksa_init.md R71) and the over-long ones (R72). -/
theorem not_validKey_iff (key : List Byte) : ¬ ValidKey key ↔ key = [] ∨ 256 < key.length := by
  rw [ValidKey, ← List.length_eq_zero_iff]
  omega

/-- Settles O7: each row of the map is its decoder's equivalence, and four bytes assemble to a count below 2^32. -/
theorem opcodeMapIsTheTable : Obligations.OpcodeMapIsTheTable := by
  refine ⟨decode_eq_init_iff, fun P count => (decode_eq_next_iff P count).trans ?_, decode_eq_reserved_iff,
    fun s P rest why hin hd => step_of_reserved hin hd⟩
  constructor
  · rintro ⟨c0, c1, c2, c3, hP, rfl⟩
    exact ⟨c0, c1, c2, c3, hP, Nat.le_of_lt_succ (assembleCount_lt c0 c1 c2 c3), rfl⟩
  · rintro ⟨c0, c1, c2, c3, hP, -, hcount⟩
    exact ⟨c0, c1, c2, c3, hP, hcount⟩

/-- Settles O44, by the four things a command can do: each answers once, and its own status byte. -/
theorem statusBytesMeanWhatTheTableSays : Obligations.StatusBytesMeanWhatTheTableSays := by
  intro c s
  obtain ⟨key, rfl, hk, hc⟩ | ⟨key, rfl, hk, hc⟩ | ⟨count, rfl, hs, hc⟩ | ⟨count, rfl, hs, hc⟩ := exec_cases c s
  · have hlen : ¬ (key = [] ∨ 256 < key.length) := mt (not_validKey_iff key).mpr (not_not_intro hk)
    refine ⟨_, 0x00#8, [], hc, rfl, ?_⟩
    simp [Fails, hk, hlen]
  · have hlen : key = [] ∨ 256 < key.length := (not_validKey_iff key).mp hk
    refine ⟨_, 0x01#8, [], hc, rfl, ?_⟩
    simp [Fails, hk, hlen]
  · refine ⟨_, 0x00#8, (prgaRounds count s).2, hc, by simp, ?_⟩
    simp [Fails, hs]
  · refine ⟨_, 0x02#8, [], hc, rfl, ?_⟩
    simp [Fails, hs]

end Sys2Proof.Machine
end

