-- ==== Sys2Proof/Proofs/Reference.lean ====
section
/-! The array against the reference of Safety.lean: an array that holds the reference's entries, its exchanges, and the rounds of
the key schedule (40_ksa_init.md R73 to R76). -/

namespace Sys2Proof.Safety

open Sys2Proof.Machine

/-- The array's entries are those of a reference array; the part of `Represents` that is about `S`. -/
def RepresentsArray (S : Sbox) (A : Nat → Nat) : Prop := ∀ a : Byte, (readS S a).toNat = A a.toNat

theorem representsArray_identityS : RepresentsArray identityS fun n => n :=
  fun a => congrArg BitVec.toNat (readS_identityS a)

/-- An exchange in the array is the reference exchange (00_scope.md R8). -/
theorem RepresentsArray.swap {S : Sbox} {A : Nat → Nat} (h : RepresentsArray S A) (a b : Byte) :
    RepresentsArray (swap S a b) (refSwap A a.toNat b.toNat) := by
  intro n
  simp only [readS_swap, refSwap, BitVec.toNat_inj]
  split_ifs
  · exact h b
  · exact h a
  · exact h n

/-- The key byte of a round as a number; the index is reduced by the length of the same key. -/
theorem keyByte_toNat (key : List Byte) (t : Nat) :
    (keyByte key t).toNat = (key.map BitVec.toNat).getD (t % (key.map BitVec.toNat).length) 0 := by
  rw [List.length_map]
  exact (List.getD_map key 0#8 BitVec.toNat).symm

/-- The array and the index are those that the reference key schedule has after `t` rounds. -/
def RepresentsKsa (key : List Byte) (t : Nat) (T : Sbox) (jk : Byte) : Prop :=
  RepresentsArray T (refKsa (key.map BitVec.toNat) t).1 ∧ jk.toNat = (refKsa (key.map BitVec.toNat) t).2

/-- The new index of a round is the reference's three-term sum (40_ksa_init.md R75). -/
theorem RepresentsKsa.ksaRound_index {key : List Byte} {t : Nat} {T : Sbox} {jk : Byte} (ht : t < 256)
    (h : RepresentsKsa key t T jk) :
    (ksaRound key t T jk).2.toNat = (refKsa (key.map BitVec.toNat) (t + 1)).2 := by
  obtain ⟨hT, hjk⟩ := h
  have hTt := hT (BitVec.ofNat 8 t)
  rw [BitVec.toNat_ofNat, Nat.mod_eq_of_lt ht] at hTt
  rw [refKsa, ← keyByte_toNat, ← hjk, ← hTt]
  exact add8_add8_toNat _ _ _

/-- One round follows the reference round: the entries exchanged are those at `t` and at the new index (40_ksa_init.md R75). -/
theorem RepresentsKsa.succ {key : List Byte} {t : Nat} {T : Sbox} {jk : Byte} (ht : t < 256)
    (h : RepresentsKsa key t T jk) :
    RepresentsKsa key (t + 1) (ksaRound key t T jk).1 (ksaRound key t T jk).2 := by
  have hj := h.ksaRound_index ht
  have hT := h.1.swap (BitVec.ofNat 8 t) (ksaRound key t T jk).2
  rw [BitVec.toNat_ofNat, Nat.mod_eq_of_lt ht, hj] at hT
  exact ⟨hT, hj⟩

/-- The array that INIT loads is the reference's after round 255 (40_ksa_init.md R76). -/
theorem representsArray_ksaArray (key : List Byte) :
    RepresentsArray (ksaArray key) (refKsa (key.map BitVec.toNat) 256).1 := by
  obtain ⟨-, h, -⟩ := ksaArray_induction (RepresentsKsa key) ⟨representsArray_identityS, rfl⟩
    fun _ _ _ ht h => h.succ ht
  exact h

end Sys2Proof.Safety
end

