-- ==== Sys2Proof/Proofs/SameEngine.lean ====
section
/-! Engines in the same state answer alike, whatever the host holds: under a command and along a run of commands. Here the two
transcripts may differ, where `SameToHost` wants them equal, and what is compared is the responses added to each. -/

namespace Sys2Proof.Safety

open Sys2Proof.Machine

/-- From `s` and `u` the engine has come to `t` and `v`, the same engine state, and has added the responses `qs` in both. -/
def AnsweredAlike (qs : List Packet) (s u t v : State) : Prop :=
  SameEngine t v ∧ t.outbox = s.outbox ++ qs ∧ v.outbox = u.outbox ++ qs

variable {s u t v t' v' : State} {ps qs : List Packet}

theorem AnsweredAlike.nil (h : SameEngine s u) : AnsweredAlike [] s u s u :=
  ⟨h, (List.append_nil _).symm, (List.append_nil _).symm⟩

theorem AnsweredAlike.trans (h : AnsweredAlike ps s u t v) (h' : AnsweredAlike qs t v t' v') :
    AnsweredAlike (ps ++ qs) s u t' v' := by
  obtain ⟨-, ht, hv⟩ := h
  obtain ⟨hsame, ht', hv'⟩ := h'
  exact ⟨hsame, by rw [ht', ht, List.append_assoc], by rw [hv', hv, List.append_assoc]⟩

theorem SameEngine.ready_eq (h : SameEngine s u) : s.ready = u.ready := h.2.2.2

/-- The response ends a command that has not written to the transcript before. -/
theorem SameEngine.deliver_alike (h : SameEngine t v) (ht : t.outbox = s.outbox) (hv : v.outbox = u.outbox) (q : Packet) :
    AnsweredAlike [q] s u (t.deliver q) (v.deliver q) :=
  ⟨h, by rw [State.deliver_outbox, ht], by rw [State.deliver_outbox, hv]⟩

/-- What INIT loads does not depend on the state before (40_ksa_init.md R78). -/
theorem sameEngine_loadReady (T : Sbox) (s u : State) : SameEngine (loadReady T s) (loadReady T u) :=
  ⟨rfl, rfl, rfl, rfl⟩

theorem SameEngine.prgaRounds (h : SameEngine s u) (n : Nat) :
    (prgaRounds n s).2 = (prgaRounds n u).2 ∧ SameEngine (prgaRounds n s).1 (prgaRounds n u).1 := by
  obtain ⟨hS, hi, hj, hr⟩ := h
  obtain ⟨hdata, hS', hi', hj'⟩ := prgaRounds_congr n hS hi hj
  exact ⟨hdata, hS', hi', hj', by rw [prgaRounds_ready, prgaRounds_ready, hr]⟩

/-- After INIT of an accepted key any two engines are the same and Ready, and both have answered OK (40_ksa_init.md R79). -/
theorem exec_init_alike {key : List Byte} (hk : ValidKey key) (s u : State) :
    ∃ t v, exec (.init key) s = .next t ∧ exec (.init key) u = .next v ∧ t.ready = true ∧
      AnsweredAlike [[0x00#8]] s u t v :=
  ⟨_, _, execInit_of_valid hk s, execInit_of_valid hk u, rfl,
    (sameEngine_loadReady (ksaArray key) s u).deliver_alike rfl rfl _⟩

/-- Any command on engines in the same state. -/
theorem SameEngine.exec_alike (h : SameEngine s u) (c : Instr) :
    ∃ t v q, exec c s = .next t ∧ exec c u = .next v ∧ AnsweredAlike [q] s u t v := by
  cases c with
  | init key =>
    by_cases hk : ValidKey key
    · obtain ⟨t, v, ht, hv, -, halike⟩ := exec_init_alike hk s u
      exact ⟨t, v, _, ht, hv, halike⟩
    · exact ⟨_, _, _, execInit_of_not_valid hk s, execInit_of_not_valid hk u, h.deliver_alike rfl rfl _⟩
  | next count =>
    cases hs : s.ready with
    | false =>
      have hu : u.ready = false := h.ready_eq.symm.trans hs
      exact ⟨_, _, _, execNext_of_not_ready hs count, execNext_of_not_ready hu count, h.deliver_alike rfl rfl _⟩
    | true =>
      have hu : u.ready = true := h.ready_eq.symm.trans hs
      obtain ⟨hdata, hsame⟩ := h.prgaRounds count
      have hnext := execNext_of_ready hu count
      rw [← hdata] at hnext
      exact ⟨_, _, _, execNext_of_ready hs count, hnext,
        hsame.deliver_alike (prgaRounds_outbox count s) (prgaRounds_outbox count u) _⟩

/-! ## Runs of commands -/

theorem runCommands_cons_of_next {c : Instr} (h : exec c s = .next t) (cs : List Instr) :
    runCommands (c :: cs) s = runCommands cs t := by
  simp only [runCommands, h]

/-- A run of commands on engines in the same state brings one response a command, the same from both. -/
theorem SameEngine.runCommands_alike (h : SameEngine s u) (cs : List Instr) :
    ∃ t v qs, runCommands cs s = .next t ∧ runCommands cs u = .next v ∧ qs.length = cs.length ∧
      AnsweredAlike qs s u t v := by
  induction cs generalizing s u with
  | nil => exact ⟨s, u, [], rfl, rfl, rfl, .nil h⟩
  | cons c cs ih =>
    obtain ⟨s', u', q, hs, hu, hfirst⟩ := h.exec_alike c
    obtain ⟨t, v, qs, ht, hv, hlen, hrest⟩ := ih hfirst.1
    rw [runCommands_cons_of_next hs, runCommands_cons_of_next hu]
    exact ⟨t, v, q :: qs, ht, hv, congrArg (· + 1) hlen, hfirst.trans hrest⟩

end Sys2Proof.Safety
end

