-- ==== Sys2Proof/Proofs/Init.lean ====
section
/-! The statements of 40_ksa_init.md: which keys fail (R71, R72), what INIT loads (R73 to R76, R78), and `ready` (R77) and a
second key (R79). -/

namespace Sys2Proof.Machine

open Sys2Proof.Safety

/-- R77: after a command that has answered, `ready` is as it was, and set by a successful INIT. -/
theorem ready_iff_of_exec {c : Instr} {s t : State} (he : exec c s = .next t) :
    t.ready = true ↔ s.ready = true ∨ ∃ key, c = .init key ∧ ValidKey key := by
  obtain ⟨key, rfl, hk, hc⟩ | ⟨key, rfl, hk, hc⟩ | ⟨count, rfl, -, hc⟩ | ⟨count, rfl, -, hc⟩ := exec_cases c s <;>
    obtain rfl := Host.Outcome.next.inj (hc.symm.trans he)
  · simp [hk]
  · simp [hk]
  · simp
  · simp

/-- Every command answers a next state: an error is a response and not a stop (60_exceptions.md R114). -/
theorem exists_exec_eq_next (c : Instr) (s : State) : ∃ t, exec c s = .next t := by
  obtain ⟨_, -, -, hc⟩ | ⟨-, -, -, hc⟩ | ⟨_, -, -, hc⟩ | ⟨-, -, -, hc⟩ := exec_cases c s <;> exact ⟨_, hc⟩

/-- No run of commands makes a Ready engine Uninitialized. -/
theorem ready_of_runCommands {cs : List Instr} {s t : State} (h : runCommands cs s = .next t) (hs : s.ready = true) :
    t.ready = true := by
  induction cs generalizing s with
  | nil => exact Host.Outcome.next.inj h ▸ hs
  | cons c cs ih =>
    obtain ⟨s', hc⟩ := exists_exec_eq_next c s
    rw [runCommands_cons_of_next hc] at h
    exact ih h ((ready_iff_of_exec hc).mpr (.inl hs))

/-- Settles O19: the rounds follow the reference rounds, and the last array is loaded. -/
theorem initComputesTheKeySchedule : Obligations.InitComputesTheKeySchedule :=
  fun key s hk => ⟨ksaArray key, execInit_of_valid hk s, representsArray_ksaArray key⟩

/-- Settles O20: the array is made by exchanges from the identity, and no round reads the state. -/
theorem initIsDeterminedByTheKey : Obligations.InitIsDeterminedByTheKey :=
  fun key hk => ⟨ksaArray key, 0#8, 0#8, isPermutation_ksaArray key,
    fun s => ⟨_, execInit_of_valid hk s, rfl, rfl, rfl⟩⟩

/-- Settles O21, by the four things a command can do. -/
theorem onlySuccessfulInitSetsReady : Obligations.OnlySuccessfulInitSetsReady := by
  intro c s
  obtain ⟨t, ht⟩ := exists_exec_eq_next c s
  exact ⟨t, ht, ready_iff_of_exec ht⟩

/-- Settles O22: INIT makes the two engines the same and Ready, and the later commands answer alike and keep both so. -/
theorem rekeyLeavesNoResidue : Obligations.RekeyLeavesNoResidue := by
  intro s u key cs hk
  obtain ⟨s', u', hs, hu, hready, hinit⟩ := exec_init_alike hk s u
  obtain ⟨t, v, qs, ht, hv, hlen, hlater⟩ := hinit.1.runCommands_alike cs
  obtain ⟨hsame, hto, hvo⟩ := hinit.trans hlater
  rw [runCommands_cons_of_next hs, runCommands_cons_of_next hu]
  exact ⟨t, v, [0x00#8] :: qs, ht, hv, hsame, ready_of_runCommands ht hready, congrArg (· + 1) hlen, hto, hvo⟩

/-- Settles O17: the empty key is not accepted. -/
theorem emptyKeyFails : Obligations.EmptyKeyFails :=
  fun s => execInit_of_not_valid ((not_validKey_iff []).mpr (.inl rfl)) s

/-- Settles O18: a key of more than 256 bytes is not accepted. -/
theorem overlongKeyFails : Obligations.OverlongKeyFails :=
  fun key s hlen => execInit_of_not_valid ((not_validKey_iff key).mpr (.inr hlen)) s

end Sys2Proof.Machine
end

