-- ==== Sys2Proof/Proofs/Next.lean ====
section
/-! The statements of 41_prga_next.md: the state check (R91), the empty request (R92), the five steps of a round (R93 to R98) and
the permutation invariant (R102). -/

namespace Sys2Proof.Machine

open Sys2Proof.Safety

/-! ## The five steps as arithmetic on natural numbers -/

/-- R6 as an equation between bytes. -/
theorem add8_eq_ofNat (a b : Byte) : add8 a b = BitVec.ofNat 8 ((a.toNat + b.toNat) % 256) := by
  rw [← add8_toNat, BitVec.ofNat_toNat, BitVec.setWidth_eq]

/-- Step 1 (R93). -/
theorem nextI_toNat (s : State) : (nextI s).toNat = (s.i.toNat + 1) % 256 :=
  add8_toNat s.i 1#8

/-- Step 2 (R94): the entry is the one at the new `i`, before the exchange. -/
theorem nextJ_toNat (s : State) : (nextJ s).toNat = (s.j.toNat + (readS s.S (nextI s)).toNat) % 256 :=
  add8_toNat s.j (readS s.S (nextI s))

/-- Step 3 (R95): the entries at the new `i` and `j` change places, and no other entry changes. -/
theorem readS_nextS (s : State) (a : Byte) :
    readS (nextS s) a =
      if a = nextI s then readS s.S (nextJ s) else if a = nextJ s then readS s.S (nextI s) else readS s.S a :=
  readS_swap s.S (nextI s) (nextJ s) a

/-- Step 4 (R96): both entries are read after the exchange. -/
theorem nextK_eq_ofNat (s : State) :
    nextK s = BitVec.ofNat 8 (((readS (nextS s) (nextI s)).toNat + (readS (nextS s) (nextJ s)).toNat) % 256) :=
  add8_eq_ofNat (readS (nextS s) (nextI s)) (readS (nextS s) (nextJ s))

/-- Step 5 (R97): the byte is the entry, after the exchange, at the sum of step 4. -/
theorem prgaRound_byte_eq (s : State) :
    (prgaRound s).2 =
      readS (nextS s)
        (BitVec.ofNat 8 (((readS (nextS s) (nextI s)).toNat + (readS (nextS s) (nextJ s)).toNat) % 256)) := by
  rw [prgaRound_byte, nextK_eq_ofNat]

/-- R98: `NEXT (n + 1)` is one round more on the state that `n` rounds leave, and its byte comes last. -/
theorem execNext_succ_of_ready {s : State} (hs : s.ready = true) (n : Nat) :
    execNext (n + 1) s =
      .next ((prgaRound (prgaRounds n s).1).1.deliver
        (0x00#8 :: ((prgaRounds n s).2 ++ [(prgaRound (prgaRounds n s).1).2]))) := by
  rw [execNext_of_ready hs, prgaRounds_succ_last]

/-! ## The statements -/

/-- Settles O27: the round after the first `n`, step by step. -/
theorem eachRoundFollowsTheFiveSteps : Obligations.EachRoundFollowsTheFiveSteps := by
  intro s n hs
  refine ⟨_, _, (prgaRounds n s).2, (prgaRound (prgaRounds n s).1).2, execNext_of_ready hs n,
    execNext_succ_of_ready hs n, prgaRounds_length n s, ?_, ?_, ?_, nextI_toNat _, nextJ_toNat _, readS_nextS _,
    prgaRound_byte_eq _⟩
  · rw [State.deliver_outbox, prgaRounds_outbox]
  · rw [State.deliver_outbox, prgaRound_outbox, prgaRounds_outbox]
  · rintro rfl
    exact ⟨rfl, rfl, rfl⟩

/-- Settles O37: the rounds keep the permutation, and the response leaves the array. -/
theorem nextKeepsThePermutation : Obligations.NextKeepsThePermutation :=
  fun count _ hs hperm => ⟨_, execNext_of_ready hs count, isPermutation_prgaRounds hperm count⟩

/-- Settles O25: the state check comes before the count is looked at. -/
theorem nextBeforeInitFails : Obligations.NextBeforeInitFails :=
  fun count _ hs => execNext_of_not_ready hs count

/-- Settles O26: zero rounds, and the status OK alone. -/
theorem nextOfZeroChangesNothing : Obligations.NextOfZeroChangesNothing :=
  fun _ hs => execNext_of_ready hs 0

end Sys2Proof.Machine
end

