-- ==== Sys2Proof/Proofs/Errors.lean ====
section
/-! The statements of 60_exceptions.md: a failed command changes nothing (R114), and each error's code is answered exactly when the
error is raised, with nothing besides (R111, R112). -/

namespace Sys2Proof.Machine

open Sys2Proof.Safety

/-- Settles O41, command by command: each fails before its first write, and only its response is added. -/
theorem failedCommandChangesNothing : Obligations.FailedCommandChangesNothing := by
  intro c s hf
  cases c with
  | init key => exact ⟨0x01#8, execInit_of_not_valid hf s⟩
  | next count => exact ⟨0x02#8, execNext_of_not_ready hf count⟩

/-- The one response of a command, as a packet: when it begins with each error's code, and that after a status other than OK
nothing follows (30_encoding.md R55, R56). -/
theorem exec_response_errors (c : Instr) (s : State) :
    ∃ (t : State) (q : Packet), exec c s = .next t ∧ t.outbox = s.outbox ++ [q] ∧
      (q.head? = some 0x01#8 ↔ ∃ key, c = .init key ∧ (key.length = 0 ∨ 256 < key.length)) ∧
      (q.head? = some 0x02#8 ↔ s.ready = false ∧ ∃ count, c = .next count) ∧
      ∀ e : Byte, e ≠ 0x00#8 → q.head? = some e → q = [e] := by
  obtain ⟨t, status, data, hc, hout, -, -, hkey, hready, hdata, -⟩ := statusBytesMeanWhatTheTableSays c s
  refine ⟨t, status :: data, hc, hout, ?_, ?_, ?_⟩
  · rw [List.head?_cons, Option.some_inj, hkey]
  · rw [List.head?_cons, Option.some_inj, hready]
  · intro e he hhead
    obtain rfl : status = e := Option.some_inj.mp hhead
    have hnil : data = [] := by_contra fun hne => he (hdata hne).1
    rw [hnil]

/-- Settles O42, by the status byte and the data of the one response. -/
theorem invalidKeyLengthExactlyWhen : Obligations.InvalidKeyLengthExactlyWhen := by
  intro c s
  obtain ⟨t, q, hc, hout, hkey, -, halone⟩ := exec_response_errors c s
  exact ⟨t, q, hc, hout, hkey, halone 0x01#8 (by decide)⟩

/-- Settles O43, by the status byte and the data of the one response. -/
theorem notInitializedExactlyWhen : Obligations.NotInitializedExactlyWhen := by
  intro c s
  obtain ⟨t, q, hc, hout, -, hready, halone⟩ := exec_response_errors c s
  exact ⟨t, q, hc, hout, hready, halone 0x02#8 (by decide)⟩

end Sys2Proof.Machine
end

