-- ==== Sys2Proof/Proofs/PacketRoundTrip.lean ====
section
/-! The statements of 30_encoding.md section 5: the decoder and the encoder are inverse to each other on the well-formed commands and
the packets that are not reserved. The idea is that the four bytes of the count field and a count below 2^32 determine each other. -/

namespace Sys2Proof

theorem encode_init (key : List Byte) : encode (.init key) = 0x01#8 :: key := rfl

theorem encode_next (count : Nat) :
    encode (.next count) =
      [0x02#8, countByte count 0, countByte count 1, countByte count 2, countByte count 3] := rfl

/-- R54: the field's four bytes are the digits of a count below 2^32 to the base 256. -/
theorem assembleCount_countByte {count : Nat} (h : count < 2 ^ 32) :
    assembleCount (countByte count 0) (countByte count 1) (countByte count 2) (countByte count 3) = count := by
  simp only [assembleCount, countByte, BitVec.toNat_ofNat]
  omega

/-- A byte of a count, from the rest of the count below it and above it. -/
theorem countByte_eq_of_digit {count n low high : Nat} {c : Byte}
    (h : count = low + 256 ^ n * (c.toNat + 256 * high)) (hlow : low < 256 ^ n) : countByte count n = c := by
  have hdiv : count / 256 ^ n = c.toNat + 256 * high := by
    rw [h, Nat.add_mul_div_left _ _ (Nat.pow_pos (by decide)), Nat.div_eq_of_lt hlow, Nat.zero_add]
  apply BitVec.eq_of_toNat_eq
  rw [countByte, hdiv, BitVec.toNat_ofNat, Nat.add_mul_mod_self_left, Nat.mod_eq_of_lt c.isLt]

/-- R53: the count that four bytes assemble to is spelled by these bytes. -/
theorem encode_next_assembleCount (c0 c1 c2 c3 : Byte) :
    encode (.next (assembleCount c0 c1 c2 c3)) = [0x02#8, c0, c1, c2, c3] := by
  have h0 := c0.isLt; have h1 := c1.isLt; have h2 := c2.isLt
  have b0 : countByte (assembleCount c0 c1 c2 c3) 0 = c0 :=
    countByte_eq_of_digit (low := 0) (high := c1.toNat + 256 * c2.toNat + 65536 * c3.toNat)
      (by simp only [assembleCount]; omega) (by omega)
  have b1 : countByte (assembleCount c0 c1 c2 c3) 1 = c1 :=
    countByte_eq_of_digit (low := c0.toNat) (high := c2.toNat + 256 * c3.toNat)
      (by simp only [assembleCount]; omega) (by omega)
  have b2 : countByte (assembleCount c0 c1 c2 c3) 2 = c2 :=
    countByte_eq_of_digit (low := c0.toNat + 256 * c1.toNat) (high := c3.toNat)
      (by simp only [assembleCount]; omega) (by omega)
  have b3 : countByte (assembleCount c0 c1 c2 c3) 3 = c3 :=
    countByte_eq_of_digit (low := c0.toNat + 256 * c1.toNat + 65536 * c2.toNat) (high := 0)
      (by simp only [assembleCount]; omega) (by omega)
  rw [encode_next, b0, b1, b2, b3]

theorem wellFormed_next_iff (count : Nat) : (Instr.next count).wellFormed = true ↔ count < 2 ^ 32 :=
  decide_eq_true_iff

/-- The decoder undoes the encoder. -/
theorem decode_encode {c : Instr} (h : c.wellFormed = true) : decode (encode c) = .command c := by
  cases c with
  | init key => exact decode_opInit key
  | next count =>
    rw [encode_next, decode_next, assembleCount_countByte ((wellFormed_next_iff count).mp h)]

/-- The encoder undoes the decoder. -/
theorem encode_of_decode {P : Packet} {c : Instr} (h : decode P = .command c) : encode c = P := by
  cases c with
  | init key => exact ((decode_eq_init_iff P key).mp h).symm
  | next count =>
    obtain ⟨c0, c1, c2, c3, rfl, rfl⟩ := (decode_eq_next_iff P count).mp h
    exact encode_next_assembleCount c0 c1 c2 c3

/-- The decoder answers only commands that a packet can spell. -/
theorem wellFormed_of_decode {P : Packet} {c : Instr} (h : decode P = .command c) : c.wellFormed = true := by
  cases c with
  | init key => rfl
  | next count =>
    obtain ⟨c0, c1, c2, c3, -, rfl⟩ := (decode_eq_next_iff P count).mp h
    exact (wellFormed_next_iff _).mpr (assembleCount_lt c0 c1 c2 c3)

/-- Settles O5: an INIT packet is its key, and a count below 2^32 is the number of its four bytes. -/
theorem decodeOfEncode : Obligations.DecodeOfEncode :=
  fun _ h => decode_encode h

/-- Settles O6, by the shape of the packets that decode to each command. -/
theorem encodeOfDecode : Obligations.EncodeOfDecode :=
  fun _ _ h => ⟨encode_of_decode h, wellFormed_of_decode h⟩

/-- Settles O8: two packets of format K, and the counts that the bytes of three packets of format C assemble to. -/
theorem tabledPacketsDecode : Obligations.TabledPacketsDecode :=
  ⟨decode_opInit _, decode_opInit [], decode_next _ _ _ _, decode_next _ _ _ _, decode_next _ _ _ _⟩

end Sys2Proof
end

