-- ==== Sys2Proof/Proofs/Primitives.lean ====
section
/-! The statements on the primitives of 00_scope.md section 5.3 and 20_memory.md section 1, and the sum of step 4 of a round: the
remainder (R7), the key byte of a round (R32), and the sum before and after an exchange (R105). -/

namespace Sys2Proof.Machine

open Sys2Proof.Safety

/-- R32: the default of the key read is not used while the key has a byte. -/
theorem keyByte_eq_getElem {key : List Byte} (t : Nat) (h : umod t (keyLength key) < keyLength key) :
    key[umod t (keyLength key)]? = some (keyByte key t) := by
  have hlt : umod t (keyLength key) < key.length := h
  rw [keyByte, List.getElem?_eq_getElem hlt, ← List.getElem_eq_getD]

/-- R105: an exchange puts the same two entries at the two indices. -/
theorem add8_readS_swap (S : Sbox) (i j : Byte) :
    add8 (readS (swap S i j) i) (readS (swap S i j) j) = add8 (readS S i) (readS S j) := by
  by_cases hij : j = i
  · rw [hij, swap_self]
  · rw [readS_swap, if_pos rfl, readS_swap, if_neg hij, if_pos rfl, add8_comm]

/-- Settles O2, by the division of `t` by `n`. -/
theorem umodIsTheRemainder : Obligations.UmodIsTheRemainder :=
  fun t n hn => ⟨umod_lt t hn, t / n, (Nat.div_add_mod t n).symm⟩

/-- Settles O4: the remainder by the key's length is an index of the key. -/
theorem keyReadIsInRange : Obligations.KeyReadIsInRange := by
  intro key t hk _
  have hlt : umod t (keyLength key) < keyLength key := umod_lt t hk.1
  exact ⟨hlt, keyByte_eq_getElem t hlt⟩

/-- Settles O31, by the entries of the exchanged array at the two indices. -/
theorem sumIsTheSameBeforeTheSwap : Obligations.SumIsTheSameBeforeTheSwap :=
  add8_readS_swap

end Sys2Proof.Machine
end

