-- ==== Sys2Proof/Proofs/Frame.lean ====
section
/-! What every command leaves of the port and the draw counter, and its use with `SameEngine`: an engine with another inbox or
another transcript does the same. The statements on INIT's frame, on the transcript (10_state.md R20) and on an error's trace
(60_exceptions.md R118). -/

namespace Sys2Proof.Safety

open Sys2Proof.Machine

variable {s t u v : State} {c : Instr}

theorem SameEngine.symm (h : SameEngine s t) : SameEngine t s := by
  obtain ⟨hS, hi, hj, hr⟩ := h
  exact ⟨hS.symm, hi.symm, hj.symm, hr.symm⟩

theorem SameEngine.trans (h : SameEngine s t) (h' : SameEngine t u) : SameEngine s u := by
  obtain ⟨hS, hi, hj, hr⟩ := h
  obtain ⟨hS', hi', hj', hr'⟩ := h'
  exact ⟨hS.trans hS', hi.trans hi', hj.trans hj', hr.trans hr'⟩

theorem sameEngine_deliver (s : State) (Q : Packet) : SameEngine (s.deliver Q) s := ⟨rfl, rfl, rfl, rfl⟩

theorem sameEngine_setInbox (s : State) (rest : List HostEvent) : SameEngine s (s.setInbox rest) := ⟨rfl, rfl, rfl, rfl⟩

/-- A state is its engine, its port and its draw counter. -/
theorem SameEngine.eq_of_port (h : SameEngine s t) (hin : s.inbox = t.inbox) (hout : s.outbox = t.outbox)
    (hd : s.draws = t.draws) : s = t := by
  obtain ⟨hS, hi, hj, hr⟩ := h
  cases s
  cases t
  simp_all

/-- No command takes an event, takes a draw, or answers other than once. -/
theorem exec_frame (he : exec c s = .next t) :
    t.inbox = s.inbox ∧ t.draws = s.draws ∧ ∃ q, t.outbox = s.outbox ++ [q] := by
  obtain ⟨key, -, -, hc⟩ | ⟨-, -, -, hc⟩ | ⟨count, -, -, hc⟩ | ⟨-, -, -, hc⟩ := exec_cases c s <;>
    obtain rfl := Host.Outcome.next.inj (hc.symm.trans he)
  · exact ⟨rfl, rfl, _, rfl⟩
  · exact ⟨rfl, rfl, _, rfl⟩
  · exact ⟨prgaRounds_inbox count s, prgaRounds_draws count s, _, by rw [State.deliver_outbox, prgaRounds_outbox]⟩
  · exact ⟨rfl, rfl, _, rfl⟩

/-- A failed command answers one byte, and the engine is the same. -/
theorem exec_of_fails (h : Fails c s) :
    ∃ t e, exec c s = .next t ∧ t.outbox = s.outbox ++ [[e]] ∧ SameEngine t s := by
  obtain ⟨e, he⟩ := failedCommandChangesNothing c s h
  exact ⟨_, e, he, rfl, sameEngine_deliver s [e]⟩

/-- The events still to come do not change what a command does. -/
theorem exec_setInbox (he : exec c s = .next t) (rest : List HostEvent) :
    exec c (s.setInbox rest) = .next (t.setInbox rest) := by
  obtain ⟨t', v, q, ht, hv, hsame, hto, hvo⟩ := (sameEngine_setInbox s rest).exec_alike c
  obtain rfl := Host.Outcome.next.inj (he.symm.trans ht)
  obtain ⟨-, htd, -⟩ := exec_frame he
  obtain ⟨hvi, hvd, -⟩ := exec_frame hv
  have hv' : SameEngine v (t.setInbox rest) := hsame.symm.trans (sameEngine_setInbox t rest)
  exact hv.trans (congrArg _ (hv'.eq_of_port hvi (hvo.trans hto.symm) (hvd.trans htd.symm)))

end Sys2Proof.Safety

namespace Sys2Proof.Machine

open Sys2Proof.Safety

/-- Settles O24: a command's frame, and a key that is not accepted adds its response only. -/
theorem initFrame : Obligations.InitFrame := by
  intro key s t he
  obtain ⟨hin, hd, hout⟩ := exec_frame he
  refine ⟨hin, hd, hout, fun hk => ?_⟩
  obtain rfl := Host.Outcome.next.inj ((execInit_of_not_valid hk s).symm.trans he)
  exact ⟨fun _ => rfl, rfl, rfl, rfl⟩

/-- Settles O45: after the failure the engine is the same, so the next command answers alike. -/
theorem errorLeavesNoTrace : Obligations.ErrorLeavesNoTrace := by
  intro c d s hf
  obtain ⟨t, e, ht, hto, hsame⟩ := exec_of_fails hf
  obtain ⟨u, v, q, hu, hv, huv, huo, hvo⟩ := hsame.exec_alike d
  refine ⟨t, u, v, e, q, ht, hu, hv, huv, ?_, hvo⟩
  rw [huo, hto, List.append_assoc, List.singleton_append]

/-- Settles O47: the two states hold the same engine, and a command keeps the rest of the state but for its response. -/
theorem transcriptIsNeverRead : Obligations.TranscriptIsNeverRead := by
  intro c s o
  have hstart : SameEngine { s with outbox := o } s := ⟨rfl, rfl, rfl, rfl⟩
  obtain ⟨v, t, q, hv, ht, hvt, hvo, hto⟩ := hstart.exec_alike c
  obtain ⟨hvi, hvd, -⟩ := exec_frame hv
  obtain ⟨hti, htd, -⟩ := exec_frame ht
  have hsame : SameEngine v { t with outbox := o ++ [q] } := hvt
  exact ⟨t, q, ht, hto, hv.trans (congrArg _ (hsame.eq_of_port (hvi.trans hti.symm) hvo (hvd.trans htd.symm)))⟩

end Sys2Proof.Machine
end

