-- ==== Sys2Proof/Proofs/Steps.lean ====
section
/-! The statements on one step and on runs of steps: what the port finds and what the step then answers (60_exceptions.md,
70_reset_and_hazards.md), the flag `ready` (10_state.md R15), and what the host can tell (R23). -/

namespace Sys2Proof.Machine

open Sys2Proof.Safety

/-- A step goes on, or it refuses the reserved packet at the front (70_reset_and_hazards.md R153). -/
theorem step_cases (s : State) :
    ((∃ t, step s = .next t) ∧ ∀ P rest why, s.inbox = .packet P :: rest → decode P ≠ .reserved why) ∨
    (∃ P rest why, s.inbox = .packet P :: rest ∧ decode P = .reserved why ∧
      step s = .refused (.reservedPacket why)) := by
  obtain hs | ⟨rest, hs⟩ | ⟨P, rest, c, hs, hd⟩ | ⟨P, rest, why, hs, hd⟩ := inbox_cases s
  · exact .inl ⟨⟨_, step_of_idle hs⟩, fun P rest why h => by simp [hs] at h⟩
  · exact .inl ⟨⟨_, step_of_reset hs⟩, fun P rest why h => by simp [hs] at h⟩
  · obtain ⟨t, ht⟩ := exists_exec_eq_next c (s.setInbox rest)
    refine .inl ⟨⟨t, (step_of_command hs hd).trans ht⟩, fun P' rest' why h hd' => ?_⟩
    obtain ⟨⟨rfl⟩, -⟩ := List.cons.inj (hs.symm.trans h)
    cases hd.symm.trans hd'
  · exact .inr ⟨P, rest, why, hs, hd, step_of_reserved hs hd⟩

/-- Settles O15, by the two ways a step can end. -/
theorem stepStopsOnlyOnReservedPackets : Obligations.StepStopsOnlyOnReservedPackets := by
  intro s
  obtain ⟨⟨t, ht⟩, hfront⟩ | ⟨P, rest, why, hs, hd, hstep⟩ := step_cases s
  · refine ⟨⟨fun _ ⟨P, rest, why, hs, hd⟩ => hfront P rest why hs hd, fun _ => ⟨t, ht⟩⟩, fun r => ⟨?_, ?_⟩⟩
    · intro hr
      cases ht.symm.trans hr
    · rintro ⟨P, rest, why, hs, hd, -⟩
      exact absurd hd (hfront P rest why hs)
  · refine ⟨⟨?_, fun hno => absurd ⟨P, rest, why, hs, hd⟩ hno⟩, fun r => ⟨?_, ?_⟩⟩
    · rintro ⟨t, ht⟩
      cases hstep.symm.trans ht
    · intro hr
      exact ⟨P, rest, why, hs, hd, (Host.Outcome.refused.inj (hstep.symm.trans hr)).symm⟩
    · rintro ⟨P', rest', why', hs', hd', rfl⟩
      exact step_of_reserved hs' hd'

/-- Settles O40: a reset clears the flag, a command sets it only as a successful INIT, and an idle step keeps it. -/
theorem readyChangesOnlyByResetAndInit : Obligations.ReadyChangesOnlyByResetAndInit := by
  intro s t hst
  obtain hs | ⟨rest, hs⟩ | ⟨P, rest, c, hs, hd⟩ | ⟨P, rest, why, hs, hd⟩ := inbox_cases s
  · obtain rfl := Host.Outcome.next.inj ((step_of_idle hs).symm.trans hst)
    exact ⟨fun h1 h0 => absurd (h0.symm.trans h1) Bool.false_ne_true,
      fun h0 h1 => absurd (h0.symm.trans h1) Bool.false_ne_true⟩
  · obtain rfl := Host.Outcome.next.inj ((step_of_reset hs).symm.trans hst)
    exact ⟨fun _ _ => ⟨rest, hs⟩, fun _ h1 => absurd h1 Bool.false_ne_true⟩
  · have hready := ready_iff_of_exec ((step_of_command hs hd).symm.trans hst)
    rw [State.setInbox_ready] at hready
    refine ⟨fun h1 h0 => absurd (h0.symm.trans (hready.mpr (.inl h1))) Bool.false_ne_true, fun h0 h1 => ?_⟩
    obtain h | ⟨key, rfl, hk⟩ := hready.mp h1
    · exact absurd (h0.symm.trans h) Bool.false_ne_true
    · exact ⟨P, key, rest, hs, hd, hk⟩
  · cases (step_of_reserved hs hd).symm.trans hst

/-- Settles O48, by what the port finds in both states. -/
theorem stepKeepsWhatTheHostCanTell : Obligations.StepKeepsWhatTheHostCanTell :=
  fun _ _ h => h.sameOutcome_step

/-- Settles O16, by induction on the commands: a step takes the first packet and executes its command, and the packets still to
come do not change what it does. -/
theorem runExecutesCommandsInOrder : Obligations.RunExecutesCommandsInOrder := by
  intro cs
  induction cs with
  | nil =>
    intro s _ hin
    exact congrArg _ ((sameEngine_setInbox s []).eq_of_port hin rfl rfl)
  | cons c cs ih =>
    intro s hwf hin
    obtain ⟨hc, hcs⟩ := List.forall_mem_cons.mp hwf
    obtain ⟨t, ht⟩ := exists_exec_eq_next c (s.setInbox (presented cs))
    obtain ⟨htin, -, -⟩ := exec_frame ht
    have hstep : step s = .next t := (step_of_command hin (decode_encode hc)).trans ht
    have hfirst : exec c { s with inbox := [] } = .next (t.setInbox []) := exec_setInbox ht []
    rw [List.length_cons, run_succ_of_next _ hstep, runCommands_cons_of_next hfirst]
    exact ih t hcs htin

/-- Settles O11: the port finds the command. -/
theorem stepRunsThePresentedCommand : Obligations.StepRunsThePresentedCommand :=
  fun _ _ _ _ hin hd _ => step_of_command hin hd

/-- Settles O12: the port finds nothing. -/
theorem idleEngineHoldsItsState : Obligations.IdleEngineHoldsItsState :=
  fun _ hin => step_of_idle hin

/-- Settles O13: the port finds the reset, which clears `ready` and leaves the port. -/
theorem resetEventUninitializes : Obligations.ResetEventUninitializes :=
  fun s rest hin => ⟨_, step_of_reset hin, resetEngine_ready _, resetEngine_inbox (s.setInbox rest),
    resetEngine_outbox (s.setInbox rest)⟩

/-- Settles O14, by the three fields of the state after reset. -/
theorem resetStateIsUninitialized : Obligations.ResetStateIsUninitialized :=
  ⟨rfl, rfl, rfl⟩

/-- Settles O39: the state after reset is Uninitialized, of which the invariant asks nothing. -/
theorem resetMeetsThePermutationInvariant : Obligations.ResetMeetsThePermutationInvariant :=
  .of_not_ready resetStateIsUninitialized.1

end Sys2Proof.Machine
end

