-- ==== Sys2Proof/Proofs/RepeatedKey.lean ====
section
/-! A key and its repetitions give every round of the key schedule the same byte (40_ksa_init.md R80). -/

namespace Sys2Proof.Machine

open Sys2Proof.Safety

theorem length_flatten_replicate (key : List Byte) (m : Nat) :
    (List.replicate m key).flatten.length = m * key.length := by
  rw [List.length_flatten, List.map_replicate, List.sum_replicate, smul_eq_mul]

/-- A byte of the repeated key is the key's byte at the index reduced by the key's length. -/
theorem getElem?_flatten_replicate (key : List Byte) {m n : Nat} (h : n < m * key.length) :
    (List.replicate m key).flatten[n]? = key[n % key.length]? := by
  induction m generalizing n with
  | zero => omega
  | succ m ih =>
    rw [List.replicate_succ, List.flatten_cons]
    by_cases hn : n < key.length
    · rw [List.getElem?_append_left hn, Nat.mod_eq_of_lt hn]
    · have hle : key.length ≤ n := Nat.not_lt.mp hn
      rw [Nat.succ_mul] at h
      rw [List.getElem?_append_right hle, ih (by omega), ← Nat.mod_eq_sub_mod hle]

/-- The byte of a round is read at `t mod klen`, and `klen` divides the length of the repeated key. -/
theorem keyByte_flatten_replicate {key : List Byte} {m : Nat} (hm : 1 ≤ m) (hk : 1 ≤ key.length) (t : Nat) :
    keyByte (List.replicate m key).flatten t = keyByte key t := by
  have hlt : t % (m * key.length) < m * key.length := Nat.mod_lt _ (Nat.mul_pos hm hk)
  simp only [keyByte, keyLength, umod, length_flatten_replicate, List.getD_eq_getElem?_getD]
  rw [getElem?_flatten_replicate key hlt, Nat.mod_mul_left_mod]

/-- Settles O23: both keys are accepted, and they load the same array because no round sees a different byte. -/
theorem repeatedKeyIsTheSameKey : Obligations.RepeatedKeyIsTheSameKey := by
  intro key m s hm hk hlen
  have hrep : ValidKey (List.replicate m key).flatten := by
    rw [ValidKey, length_flatten_replicate]
    exact ⟨Nat.mul_pos hm hk, hlen⟩
  have hkey : ValidKey key := ⟨hk, (Nat.le_mul_of_pos_left _ hm).trans hlen⟩
  refine ⟨_, execInit_of_valid hkey s, ?_⟩
  rw [← ksaArray_congr (keyByte_flatten_replicate hm hk)]
  exact execInit_of_valid hrep s

end Sys2Proof.Machine
end

