-- ==== Sys2Proof/Proofs/Keystream.lean ====
section
/-! The rounds of NEXT against the reference generator of Safety.lean (41_prga_next.md R93 to R98), and INIT and NEXT together
against the whole reference algorithm (00_scope.md R1, R3). -/

namespace Sys2Proof.Safety

open Sys2Proof.Machine

variable {s : State} {r : RefState}

/-- Steps 1 to 3 of a round follow the reference round. -/
theorem Represents.prgaRound (h : Represents s r) : Represents (prgaRound s).1 (refRound r) := by
  obtain ⟨hS, hi, hj⟩ := h
  have hI : (nextI s).toNat = (r.i + 1) % 256 := by rw [nextI_toNat, hi]
  have hJ : (nextJ s).toNat = (r.j + r.S ((r.i + 1) % 256)) % 256 := by rw [nextJ_toNat, hj, hS, hI]
  have hA : RepresentsArray (nextS s) (refSwap r.S (nextI s).toNat (nextJ s).toNat) :=
    RepresentsArray.swap hS (nextI s) (nextJ s)
  rw [hI, hJ] at hA
  exact ⟨hA, hI, hJ⟩

/-- Steps 4 and 5: the byte of a round is the reference's, from the state that its steps 1 to 3 leave. -/
theorem Represents.prgaRound_byte (h : Represents s r) : (Machine.prgaRound s).2.toNat = refByte (refRound r) := by
  obtain ⟨hS, hi, hj⟩ := h.prgaRound
  have hK : (nextK s).toNat = ((refRound r).S (refRound r).i + (refRound r).S (refRound r).j) % 256 := by
    rw [← hi, ← hj, ← hS, ← hS]
    exact add8_toNat _ _
  rw [refByte, ← hK]
  exact hS (nextK s)

/-- A keystream is continued by the byte of the next reference round. -/
theorem IsKeystream.concat {data : List Byte} {b : Byte} (h : IsKeystream r data)
    (hb : b.toNat = refByte (refRounds r (data.length + 1))) : IsKeystream r (data ++ [b]) := by
  intro n hn
  by_cases hlt : n < data.length
  · rw [List.getElem_append_left hlt]
    exact h n hlt
  · rw [List.length_append, List.length_singleton] at hn
    obtain rfl : n = data.length := by omega
    rw [List.getElem_concat_length rfl]
    exact hb

/-- After any number of rounds the machine is where the reference is, and its bytes are the reference's. -/
theorem Represents.prgaRounds (h : Represents s r) (n : Nat) :
    Represents (prgaRounds n s).1 (refRounds r n) ∧ IsKeystream r (prgaRounds n s).2 := by
  induction n with
  | zero => exact ⟨h, fun n hn => absurd hn (Nat.not_lt_zero n)⟩
  | succ n ih =>
    obtain ⟨hstate, hdata⟩ := ih
    rw [prgaRounds_succ_last]
    refine ⟨hstate.prgaRound, hdata.concat ?_⟩
    rw [prgaRounds_length]
    exact hstate.prgaRound_byte

/-- INIT leaves what the reference key schedule leaves (40_ksa_init.md R76), and the engine is Ready. -/
theorem exec_init_represents {key : List Byte} (hk : ValidKey key) (s : State) :
    ∃ t, exec (.init key) s = .next t ∧ t.ready = true ∧ Represents t (refInit (key.map BitVec.toNat)) ∧
      t.inbox = s.inbox ∧ t.outbox = s.outbox ++ [[0x00#8]] :=
  ⟨_, execInit_of_valid hk s, rfl, ⟨representsArray_ksaArray key, rfl, rfl⟩, rfl, rfl⟩

end Sys2Proof.Safety

namespace Sys2Proof.Machine

open Sys2Proof.Safety

/-- Settles O28: the rounds follow the reference rounds, and the response leaves the engine. -/
theorem nextComputesTheKeystream : Obligations.NextComputesTheKeystream := by
  intro s r count hs hrep
  obtain ⟨hstate, hdata⟩ := hrep.prgaRounds count
  have hexec : exec (.next count) s = _ := execNext_of_ready hs count
  obtain ⟨hin, hd, -⟩ := exec_frame hexec
  refine ⟨_, (prgaRounds count s).2, hexec, prgaRounds_length count s, hdata, hstate, ?_, hin, hd, ?_⟩
  · rw [State.deliver_ready, prgaRounds_ready, hs]
  · rw [State.deliver_outbox, prgaRounds_outbox]

/-- Settles O50: the first step is INIT and leaves the reference's state, from which the second is the reference's generator. -/
theorem engineComputesRc4 : Obligations.EngineComputesRc4 := by
  intro s key c0 c1 c2 c3 rest hk hin
  obtain ⟨u, hinit, hready, hrep, huin, huout⟩ := exec_init_represents hk (s.setInbox _)
  have hfirst : step s = .next u := (step_of_command hin (decode_opInit key)).trans hinit
  obtain ⟨t, data, hnext, hlen, hdata, -, -, htin, -, hout⟩ :=
    nextComputesTheKeystream (u.setInbox rest) _ (assembleCount c0 c1 c2 c3) hready hrep
  have hsecond : step u = .next t := (step_of_command huin (decode_next c0 c1 c2 c3)).trans hnext
  refine ⟨t, data, ?_, hlen, hdata, ?_, htin⟩
  · rw [run_succ_of_next 1 hfirst, run_succ_of_next 0 hsecond, run_zero]
  · rw [hout, State.setInbox_outbox, huout, State.setInbox_outbox, List.append_assoc, List.singleton_append]

end Sys2Proof.Machine
end

