-- ==== Sys2Proof/Proofs/Rounds.lean ====
section
/-! The statements on single rounds and on one NEXT: the derived rules R104 and R106 of 41_prga_next.md section 5, NEXT's frame, and
the index register `i` (10_state.md R12). -/

namespace Sys2Proof.Machine

open Sys2Proof.Safety

/-! ## One round -/

/-- R104: an exchange at equal indices leaves the array. -/
theorem nextS_of_nextJ_eq_nextI {s : State} (h : nextJ s = nextI s) : nextS s = s.S := by
  rw [nextS, h, swap_self]

/-- R105: the index of the byte is the sum of the two entries before the exchange too. -/
theorem nextK_eq_add8_before (s : State) : nextK s = add8 (readS s.S (nextI s)) (readS s.S (nextJ s)) :=
  add8_readS_swap s.S (nextI s) (nextJ s)

/-- R106 at `i`: the byte is what stood at `j` before. -/
theorem prgaRound_byte_of_nextK_eq_nextI {s : State} (h : nextK s = nextI s) :
    (prgaRound s).2 = readS s.S (nextJ s) := by
  rw [prgaRound_byte, h, readS_nextS, if_pos rfl]

/-- R106 at `j`: the byte is what stood at `i` before. -/
theorem prgaRound_byte_of_nextK_eq_nextJ {s : State} (h : nextK s = nextJ s) :
    (prgaRound s).2 = readS s.S (nextI s) := by
  by_cases hij : nextJ s = nextI s
  · rw [prgaRound_byte_of_nextK_eq_nextI (h.trans hij), hij]
  · rw [prgaRound_byte, h, readS_nextS, if_neg hij, if_pos rfl]

theorem execNext_one_of_ready {s : State} (hs : s.ready = true) :
    execNext 1 s = .next ((prgaRound s).1.deliver [0x00#8, (prgaRound s).2]) :=
  execNext_succ_of_ready hs 0

/-! ## Several rounds -/

/-- R95: the rounds store to the `i` and the `j` of each and to nothing else. -/
theorem readS_prgaRounds_of_not_mem {n : Nat} {s : State} {a : Byte} (h : a ∉ storedAddresses n s) :
    readS (prgaRounds n s).1.S a = readS s.S a := by
  induction n generalizing s with
  | zero => rfl
  | succ n ih =>
    rw [storedAddresses, List.mem_cons, List.mem_cons, not_or, not_or] at h
    obtain ⟨hi, hj, hlater⟩ := h
    rw [prgaRounds_succ, ih hlater, prgaRound_S, readS_nextS, if_neg hi, if_neg hj]

/-- R12: each round advances `i` by 1. -/
theorem prgaRounds_i_toNat (n : Nat) (s : State) : (prgaRounds n s).1.i.toNat = (s.i.toNat + n) % 256 := by
  induction n with
  | zero => exact (Nat.mod_eq_of_lt s.i.isLt).symm
  | succ n ih => rw [prgaRounds_succ_last, prgaRound_i, nextI_toNat, ih, Nat.mod_add_mod, Nat.add_assoc]

/-! ## The statements -/

/-- Settles O30: with equal indices the entries at both are one, and the array is as before. -/
theorem equalIndicesLeaveTheArray : Obligations.EqualIndicesLeaveTheArray := by
  intro s hs hij
  have hji : nextJ s = nextI s := hij
  have hS : nextS s = s.S := nextS_of_nextJ_eq_nextI hji
  refine ⟨_, execNext_one_of_ready hs, hS, ?_⟩
  rw [State.deliver_outbox, prgaRound_outbox, prgaRound_byte_eq, hS, hji, ← two_mul]
  rfl

/-- Settles O32: the sum of step 4 is `k`, and the two entries have changed places. -/
theorem byteIsReadAfterTheSwap : Obligations.ByteIsReadAfterTheSwap := by
  rintro s i j k hs rfl rfl rfl
  have hK := nextK_eq_add8_before s
  refine ⟨_, execNext_one_of_ready hs, fun hki => ?_, fun hkj => ?_⟩
  · rw [State.deliver_outbox, prgaRound_byte_of_nextK_eq_nextI (hK.trans hki)]
    rfl
  · rw [State.deliver_outbox, prgaRound_byte_of_nextK_eq_nextJ (hK.trans hkj)]
    rfl

/-- Settles O33: in an Uninitialized engine only the response is added; in a Ready one the rounds store to their addresses. -/
theorem nextFrame : Obligations.NextFrame := by
  intro count s t he
  obtain ⟨hin, hd, hout⟩ := exec_frame he
  cases hs : s.ready with
  | false =>
    obtain rfl := Host.Outcome.next.inj ((execNext_of_not_ready hs count).symm.trans he)
    exact ⟨hs, hin, hd, hout, fun _ _ => rfl, fun _ => ⟨fun _ => rfl, rfl, rfl⟩⟩
  | true =>
    obtain rfl := Host.Outcome.next.inj ((execNext_of_ready hs count).symm.trans he)
    refine ⟨(prgaRounds_ready count s).trans hs, hin, hd, hout, fun _ ha => readS_prgaRounds_of_not_mem ha, ?_⟩
    rintro (h | rfl)
    · exact absurd h.symm Bool.false_ne_true
    · exact ⟨fun _ => rfl, rfl, rfl⟩

/-- Settles O34: INIT loads 0, each round adds 1, a failed command keeps the engine, and an idle step the whole state. -/
theorem indexIAdvancesOncePerByte : Obligations.IndexIAdvancesOncePerByte := by
  refine ⟨fun key s hk => ⟨_, execInit_of_valid hk s, rfl⟩,
    fun count s hs => ⟨_, execNext_of_ready hs count, prgaRounds_i_toNat count s⟩, fun c s hf => ?_,
    fun s hin => ⟨s, step_of_idle hin, rfl⟩⟩
  obtain ⟨t, -, ht, -, -, hi, -⟩ := exec_of_fails hf
  exact ⟨t, ht, hi⟩

end Sys2Proof.Machine
end

