-- ==== Sys2Proof/Proofs/Requests.lean ====
section
/-! Several NEXT commands on a Ready engine are the rounds of all of them: the statements on split requests (41_prga_next.md R99), on
the index register `i` (10_state.md R14), on NEXT before and after INIT (70_reset_and_hazards.md R142) and on the
pseudo-instructions (30_encoding.md R60). -/

namespace Sys2Proof.Safety

open Sys2Proof.Machine

variable {s t : State}

/-- The rounds do not read the transcript. -/
theorem prgaRounds_deliver (n : Nat) (s : State) (Q : Packet) :
    prgaRounds n (s.deliver Q) = ((prgaRounds n s).1.deliver Q, (prgaRounds n s).2) := by
  induction n generalizing s with
  | zero => rfl
  | succ n ih =>
    have hround : prgaRound (s.deliver Q) = ((prgaRound s).1.deliver Q, (prgaRound s).2) := rfl
    rw [prgaRounds_succ, hround, ih, prgaRounds_succ]

theorem runCommands_init_cons {key : List Byte} (hk : ValidKey key) (cs : List Instr) (s : State) :
    runCommands (.init key :: cs) s = runCommands cs ((loadReady (ksaArray key) s).deliver [0x00#8]) :=
  runCommands_cons_of_next ((exec_init key s).trans (execInit_of_valid hk s)) cs

theorem runCommands_next_cons (hs : s.ready = true) (n : Nat) (cs : List Instr) :
    runCommands (.next n :: cs) s =
      runCommands cs ((prgaRounds n s).1.deliver (0x00#8 :: (prgaRounds n s).2)) :=
  runCommands_cons_of_next ((exec_next n s).trans (execNext_of_ready hs n)) cs

theorem runCommands_append {cs : List Instr} (h : runCommands cs s = .next t) (ds : List Instr) :
    runCommands (cs ++ ds) s = runCommands ds t := by
  induction cs generalizing s with
  | nil => exact congrArg _ (Host.Outcome.next.inj h)
  | cons c cs ih =>
    obtain ⟨s', hc⟩ := exists_exec_eq_next c s
    rw [runCommands_cons_of_next hc] at h
    rw [List.cons_append, runCommands_cons_of_next hc, ih h]

/-- What NEXT commands with these counts answer, one response each, and where they leave the engine: the bytes and the state of
the rounds of all counts together (41_prga_next.md R98, R99). -/
def AnswersRequests (counts : List Nat) (s t : State) (datas : List (List Byte)) : Prop :=
  t.outbox = s.outbox ++ datas.map (fun data => 0x00#8 :: data) ∧ datas.map List.length = counts ∧
    datas.flatten = (prgaRounds counts.sum s).2 ∧ SameEngine t (prgaRounds counts.sum s).1

/-- Any NEXT commands on a Ready engine succeed. -/
theorem runCommands_next_of_ready (hs : s.ready = true) (counts : List Nat) :
    ∃ t datas, runCommands (counts.map .next) s = .next t ∧ AnswersRequests counts s t datas := by
  induction counts generalizing s with
  | nil => exact ⟨s, [], rfl, (List.append_nil _).symm, rfl, rfl, rfl, rfl, rfl, rfl⟩
  | cons n ns ih =>
    have hready : ((prgaRounds n s).1.deliver (0x00#8 :: (prgaRounds n s).2)).ready = true :=
      (prgaRounds_ready n s).trans hs
    obtain ⟨t, datas, hrun, hout, hlens, hdata, hsame⟩ := ih hready
    rw [prgaRounds_deliver] at hdata hsame
    refine ⟨t, (prgaRounds n s).2 :: datas, (runCommands_next_cons hs n _).trans hrun, ?_, ?_, ?_, ?_⟩
    · rw [hout, State.deliver_outbox, prgaRounds_outbox, List.append_assoc, List.map_cons, List.singleton_append]
    · rw [List.map_cons, prgaRounds_length, hlens]
    · rw [List.flatten_cons, hdata, List.sum_cons, prgaRounds_add]
    · rw [List.sum_cons, prgaRounds_add]
      exact hsame.trans (sameEngine_deliver _ _)

/-- R142: NEXT commands on an Uninitialized engine each answer `02` and do nothing else. -/
theorem runCommands_next_of_not_ready (hs : s.ready = false) (counts : List Nat) :
    runCommands (counts.map .next) s =
      .next { s with outbox := s.outbox ++ List.replicate counts.length [0x02#8] } := by
  induction counts generalizing s with
  | nil => simp [runCommands]
  | cons n ns ih =>
    have hfirst : exec (.next n) s = .next (s.deliver [0x02#8]) := execNext_of_not_ready hs n
    rw [List.map_cons, runCommands_cons_of_next hfirst, ih (s := s.deliver [0x02#8]) hs,
      State.deliver_outbox, List.append_assoc, List.singleton_append, List.length_cons, List.replicate_succ]
    rfl

end Sys2Proof.Safety

namespace Sys2Proof.Machine

open Sys2Proof.Safety

/-- Settles O29: the rounds of the second request are made on the state that the first leaves. -/
theorem splitRequestsContinueTheKeystream : Obligations.SplitRequestsContinueTheKeystream := by
  intro s a b hs
  have hready : ((prgaRounds a s).1.deliver (0x00#8 :: (prgaRounds a s).2)).ready = true :=
    (prgaRounds_ready a s).trans hs
  have hsecond := execNext_of_ready hready b
  have hwhole := execNext_of_ready hs (a + b)
  rw [prgaRounds_deliver] at hsecond
  rw [prgaRounds_add] at hwhole
  refine ⟨_, _, _, (prgaRounds a s).2, (prgaRounds b (prgaRounds a s).1).2, execNext_of_ready hs a, hsecond, hwhole,
    prgaRounds_length a s, prgaRounds_length b _, ?_, ?_, ⟨rfl, rfl, rfl, rfl⟩⟩
  · simp
  · simp

/-- Settles O36: INIT loads 0, and the later requests are as many rounds as their counts together. -/
theorem indexICountsTheBytes : Obligations.IndexICountsTheBytes := by
  intro key counts s hk
  obtain ⟨t, datas, hrun, -, -, -, -, hi, -⟩ :=
    runCommands_next_of_ready (s := (loadReady (ksaArray key) s).deliver [0x00#8]) rfl counts
  refine ⟨t, (runCommands_init_cons hk _ s).trans hrun, ?_⟩
  rw [hi, prgaRounds_i_toNat, State.deliver_i, loadReady_i, BitVec.toNat_ofNat, Nat.zero_mod, Nat.zero_add]

/-- Settles O46: the early requests leave the engine as it was, INIT makes it Ready, and the later ones succeed. -/
theorem keystreamNeedsOneSuccessfulInit : Obligations.KeystreamNeedsOneSuccessfulInit := by
  intro early later key s hs hk
  have hearly := runCommands_next_of_not_ready hs early
  refine ⟨hearly, ?_⟩
  rw [runCommands_append hearly, runCommands_init_cons hk]
  obtain ⟨t, datas, hlater, hout, hlens, -, -⟩ :=
    runCommands_next_of_ready (State.deliver_ready [0x00#8] (loadReady (ksaArray key) _)) later
  refine ⟨t, datas.map fun data => 0x00#8 :: data, hlater, ?_, ?_, ?_⟩
  · rw [hout, State.deliver_outbox, loadReady_outbox, List.append_assoc, List.singleton_append]
  · rw [← hlens, List.length_map, List.length_map]
  · intro q hq
    obtain ⟨data, -, rfl⟩ := List.mem_map.mp hq
    rfl

/-! ## The pseudo-instruction `NEXTL` -/

/-- The counts of the commands that `NEXTL count` stands for. -/
def nextlCounts (count : Nat) : List Nat :=
  List.replicate (count / 4294967295) 4294967295 ++
    if count % 4294967295 = 0 then [] else [count % 4294967295]

theorem expandNextl_eq_map (count : Nat) : expandNextl count = (nextlCounts count).map .next := by
  rw [expandNextl, nextlCounts, List.map_append, List.map_replicate, apply_ite (List.map Instr.next)]
  rfl

/-- The pieces add up to the whole count: quotient and remainder. -/
theorem sum_nextlCounts (count : Nat) : (nextlCounts count).sum = count := by
  have hrest : (if count % 4294967295 = 0 then [] else [count % 4294967295]).sum = count % 4294967295 := by
    split_ifs with h
    · exact h.symm
    · exact List.sum_singleton
  rw [nextlCounts, List.sum_append, List.sum_replicate, hrest, smul_eq_mul, Nat.div_add_mod']

/-- A piece is at most 4294967295, which the count field holds. -/
theorem lt_of_mem_nextlCounts {count n : Nat} (h : n ∈ nextlCounts count) : n < 2 ^ 32 := by
  rw [nextlCounts, List.mem_append] at h
  obtain h | h := h
  · rw [List.eq_of_mem_replicate h]
    decide
  · split_ifs at h
    · exact absurd h List.not_mem_nil
    · rw [List.mem_singleton] at h
      omega

/-- Settles O10: NEXTL is NEXT commands whose counts add up to its own, so it makes the same rounds. -/
theorem pseudoInstructionsExpand : Obligations.PseudoInstructionsExpand := by
  refine ⟨fun _ => rfl, fun _ => rfl, fun count c hc => ?_, fun s count hs => ?_⟩
  · rw [expandLine, expandNextl_eq_map] at hc
    obtain ⟨n, hn, rfl⟩ := List.mem_map.mp hc
    exact (wellFormed_next_iff n).mpr (lt_of_mem_nextlCounts hn)
  · obtain ⟨t, datas, hrun, hout, -, hdata, hsame⟩ := runCommands_next_of_ready hs (nextlCounts count)
    rw [sum_nextlCounts] at hdata hsame
    rw [expandLine, expandNextl_eq_map]
    refine ⟨t, _, datas, hrun, execNext_of_ready hs count, hsame.trans (sameEngine_deliver _ _).symm, hout, ?_⟩
    rw [State.deliver_outbox, prgaRounds_outbox, hdata]

end Sys2Proof.Machine
end

