-- ==== Sys2Proof/Proofs/ListingText.lean ====
section
/-! The statement of 30_encoding.md section 6 on the text of a listing line: what the reader reads of a digit, a byte, a number, a key
and a line of words (R59; log 8). -/

namespace Sys2Proof.Machine

/-! ## Digits, bytes and numbers -/

/-- What the reader of a line takes for one word: no space ends it early and no `;` begins a comment in it. -/
def IsWord (w : List Char) : Prop := w ≠ [] ∧ ' ' ∉ w ∧ ';' ∉ w

/-- A digit is read back in every base that has it. -/
theorem digitValue_hexDigits_getD {base n : Nat} (hn : n < base) (hbase : base ≤ 16) :
    digitValue base (hexDigits.getD n '0') = some n := by
  have hnodup : hexDigits.Nodup := by decide
  have hlen : n < hexDigits.length := hn.trans_le hbase
  have hidx : hexDigits.idxOf (hexDigits.getD n '0') = n := by
    rw [← List.getElem_eq_getD (h := hlen)]
    exact hnodup.idxOf_getElem n hlen
  simp only [digitValue, hidx, if_pos hn]

theorem mem_hexDigits_of_mem_hexByte {b : Byte} {c : Char} (h : c ∈ hexByte b) : c ∈ hexDigits := by
  have hmem : ∀ n < 16, hexDigits.getD n '0' ∈ hexDigits := by decide
  have hb := b.isLt
  rw [hexByte, List.mem_pair] at h
  obtain rfl | rfl := h
  · exact hmem _ (by omega)
  · exact hmem _ (by omega)

theorem isWord_hexByte (b : Byte) : IsWord (hexByte b) :=
  ⟨List.cons_ne_nil _ _, mt mem_hexDigits_of_mem_hexByte (by decide), mt mem_hexDigits_of_mem_hexByte (by decide)⟩

theorem readHexByte_hexByte (b : Byte) : readHexByte (hexByte b) = some b := by
  have hb := b.isLt
  have hhi := digitValue_hexDigits_getD (base := 16) (n := b.toNat / 16) (by omega) le_rfl
  have hlo := digitValue_hexDigits_getD (base := 16) (n := b.toNat % 16) (by omega) le_rfl
  simp only [hexByte, readHexByte, hhi, hlo, Nat.div_add_mod, BitVec.ofNat_toNat, BitVec.setWidth_eq]

theorem digitValue_digitChar {n : Nat} (hn : n < 10) : digitValue 10 n.digitChar = some n := by
  have hchar : ∀ n < 10, n.digitChar = hexDigits.getD n '0' := by decide
  rw [hchar n hn]
  exact digitValue_hexDigits_getD hn (by decide)

theorem isWord_toDigits (n : Nat) : IsWord (Nat.toDigits 10 n) := by
  have hdigit : ∀ c ∈ Nat.toDigits 10 n, c.isDigit = true :=
    fun _ hc => Nat.isDigit_of_mem_toDigits (by decide) le_rfl hc
  exact ⟨Nat.toDigits_ne_nil, mt (hdigit ' ') (by decide), mt (hdigit ';') (by decide)⟩

/-- Reading a digit more after a number that has been read. -/
theorem readDecimalFrom_append_digit {acc m d : Nat} {cs : List Char} (h : readDecimalFrom acc cs = some m)
    (hd : d < 10) : readDecimalFrom acc (cs ++ [d.digitChar]) = some (10 * m + d) := by
  induction cs generalizing acc with
  | nil =>
    obtain rfl := Option.some_inj.mp h
    simp only [List.nil_append, readDecimalFrom, digitValue_digitChar hd]
  | cons c cs ih =>
    rw [readDecimalFrom] at h
    rw [List.cons_append, readDecimalFrom]
    cases hc : digitValue 10 c with
    | none => simp [hc] at h
    | some e =>
      simp only [hc] at h ⊢
      exact ih h

theorem readDecimalFrom_toDigits (n : Nat) : readDecimalFrom 0 (Nat.toDigits 10 n) = some n := by
  induction n using Nat.strongRecOn with
  | ind n ih =>
    by_cases hn : n < 10
    · rw [Nat.toDigits_of_lt_base hn]
      simpa using readDecimalFrom_append_digit (acc := 0) (cs := []) rfl hn
    · rw [Nat.toDigits_of_base_le (by decide) (Nat.not_lt.mp hn),
        readDecimalFrom_append_digit (ih (n / 10) (by omega)) (Nat.mod_lt n (by decide)), Nat.div_add_mod]

theorem readDecimal_toDigits (n : Nat) : readDecimal (Nat.toDigits 10 n) = some n := by
  have hread := readDecimalFrom_toDigits n
  cases hw : Nat.toDigits 10 n with
  | nil => exact absurd hw Nat.toDigits_ne_nil
  | cons c cs =>
    rw [hw] at hread
    exact hread

theorem readKey_map_hexByte (key : List Byte) : readKey (key.map hexByte) = some key := by
  induction key with
  | nil => rfl
  | cons b bs ih => simp only [List.map_cons, readKey, readHexByte_hexByte, ih]

theorem readSomeKey_map_hexByte {key : List Byte} (h : key ≠ []) : readSomeKey (key.map hexByte) = some key := by
  cases key with
  | nil => exact absurd rfl h
  | cons b bs => exact readKey_map_hexByte (b :: bs)

/-- A byte has two digits, so no key is read as the word `EMPTY`. -/
theorem map_hexByte_ne_wordEmpty (key : List Byte) : key.map hexByte ≠ [wordEmpty] := by
  cases key with
  | nil => exact nofun
  | cons b bs =>
    intro h
    have hlen : 2 = 5 := congrArg List.length (List.cons.inj h).1
    omega

/-! ## Lines of words -/

theorem joinWords_cons_cons (w v : List Char) (vs : List (List Char)) :
    joinWords (w :: v :: vs) = w ++ ' ' :: joinWords (v :: vs) := rfl

/-- The characters of a word go to the word being read. -/
theorem splitWords_append {w : List Char} (hw : ' ' ∉ w) (word rest : List Char) :
    splitWords word (w ++ rest) = splitWords (word ++ w) rest := by
  induction w generalizing word with
  | nil => rw [List.nil_append, List.append_nil]
  | cons c cs ih =>
    obtain ⟨hc, hcs⟩ := not_or.mp (mt List.mem_cons.mpr hw)
    rw [List.cons_append, splitWords, if_neg (Ne.symm hc), ih hcs, List.append_assoc, List.singleton_append]

theorem splitWords_nil_spaces (n : Nat) : splitWords [] (List.replicate n ' ') = [] := by
  induction n with
  | zero => rfl
  | succ n ih => rw [List.replicate_succ, splitWords, if_pos rfl, if_pos rfl, ih]

/-- A word ends with the line, spaces between or not. -/
theorem splitWords_spaces {w : List Char} (hw : w ≠ []) (n : Nat) : splitWords w (List.replicate n ' ') = [w] := by
  cases n with
  | zero => rw [List.replicate_zero, splitWords, if_neg hw]
  | succ n => rw [List.replicate_succ, splitWords, if_pos rfl, if_neg hw, splitWords_nil_spaces]

/-- A line is cut into the words it was made of, and spaces at its end add none. -/
theorem splitWords_joinWords {ws : List (List Char)} (hws : ∀ w ∈ ws, IsWord w) (hne : ws ≠ []) (n : Nat) :
    splitWords [] (joinWords ws ++ List.replicate n ' ') = ws := by
  induction ws with
  | nil => exact absurd rfl hne
  | cons w ws ih =>
    obtain ⟨⟨hw, hspace, -⟩, hws⟩ := List.forall_mem_cons.mp hws
    cases ws with
    | nil => rw [joinWords, splitWords_append hspace, List.nil_append, splitWords_spaces hw]
    | cons v vs =>
      have hvs : v :: vs ≠ [] := List.cons_ne_nil v vs
      rw [joinWords_cons_cons, List.append_assoc, splitWords_append hspace, List.nil_append, List.cons_append,
        splitWords, if_pos rfl, if_neg hw, ih hws hvs]

theorem semicolon_not_mem_joinWords {ws : List (List Char)} (hws : ∀ w ∈ ws, IsWord w) : ';' ∉ joinWords ws := by
  induction ws with
  | nil => exact List.not_mem_nil
  | cons w ws ih =>
    obtain ⟨⟨-, -, hsemi⟩, hws⟩ := List.forall_mem_cons.mp hws
    cases ws with
    | nil => exact hsemi
    | cons v vs =>
      rw [joinWords_cons_cons, List.mem_append, List.mem_cons, not_or, not_or]
      exact ⟨hsemi, by decide, ih hws⟩

/-- The text of a line is read by its words, alone and before a comment. -/
theorem parseLine_joinWords {ws : List (List Char)} (hws : ∀ w ∈ ws, IsWord w) (hne : ws ≠ []) :
    parseLine (joinWords ws) = lineOfWords ws ∧
      ∀ comment, parseLine (joinWords ws ++ ' ' :: ';' :: comment) = lineOfWords ws := by
  have htext : ∀ c ∈ joinWords ws, (c != ';') = true :=
    fun c hc => bne_iff_ne.mpr fun hsemi => semicolon_not_mem_joinWords hws (hsemi ▸ hc)
  have halone := splitWords_joinWords hws hne 0
  have hspace := splitWords_joinWords hws hne 1
  rw [List.replicate_zero, List.append_nil] at halone
  constructor
  · rw [parseLine, List.takeWhile_eq_self_iff.mpr htext, halone]
  · intro comment
    have hcut : (joinWords ws ++ ' ' :: ';' :: comment).takeWhile (fun c => c != ';') = joinWords ws ++ [' '] := by
      rw [List.takeWhile_append_of_pos htext]
      rfl
    rw [parseLine, hcut]
    exact congrArg lineOfWords hspace

/-! ## The lines of a listing -/

theorem wordsOfLine_ne_nil (l : ListingLine) : wordsOfLine l ≠ [] := by
  match l with
  | .init [] => exact List.cons_ne_nil _ _
  | .init (_ :: _) => exact List.cons_ne_nil _ _
  | .next _ => exact List.cons_ne_nil _ _
  | .nextl _ => exact List.cons_ne_nil _ _
  | .rekey _ => exact List.cons_ne_nil _ _

/-- The five words of letters. -/
theorem isWord_of_mem_letterWords {w : List Char} (h : w ∈ [wordInit, wordNext, wordNextl, wordRekey, wordEmpty]) :
    IsWord w := by
  have hall : ∀ w ∈ [wordInit, wordNext, wordNextl, wordRekey, wordEmpty], w ≠ [] ∧ ' ' ∉ w ∧ ';' ∉ w := by
    decide
  exact hall w h

theorem isWord_of_mem_cons_map_hexByte {m : List Char} (hm : IsWord m) (key : List Byte) :
    ∀ w ∈ m :: key.map hexByte, IsWord w :=
  List.forall_mem_cons.mpr ⟨hm, List.forall_mem_map.mpr fun b _ => isWord_hexByte b⟩

theorem isWord_of_mem_pair {m v : List Char} (hm : IsWord m) (hv : IsWord v) : ∀ w ∈ [m, v], IsWord w :=
  List.forall_mem_cons.mpr ⟨hm, List.forall_mem_singleton.mpr hv⟩

theorem isWord_of_mem_wordsOfLine (l : ListingLine) : ∀ w ∈ wordsOfLine l, IsWord w := by
  match l with
  | .init [] => exact isWord_of_mem_pair (isWord_of_mem_letterWords (by simp)) (isWord_of_mem_letterWords (by simp))
  | .init (b :: bs) => exact isWord_of_mem_cons_map_hexByte (isWord_of_mem_letterWords (by simp)) (b :: bs)
  | .rekey key => exact isWord_of_mem_cons_map_hexByte (isWord_of_mem_letterWords (by simp)) key
  | .next count => exact isWord_of_mem_pair (isWord_of_mem_letterWords (by simp)) (isWord_toDigits count)
  | .nextl count => exact isWord_of_mem_pair (isWord_of_mem_letterWords (by simp)) (isWord_toDigits count)

theorem lineOfWords_wordInit {ops : List (List Char)} (h : ops ≠ [wordEmpty]) :
    lineOfWords (wordInit :: ops) = (readSomeKey ops).map .init := by
  unfold lineOfWords
  simp only [if_true, if_neg h]

theorem lineOfWords_wordRekey (ops : List (List Char)) :
    lineOfWords (wordRekey :: ops) = (readSomeKey ops).map .rekey := by
  have hne : wordRekey ≠ wordInit := by decide
  unfold lineOfWords
  simp only [if_neg hne, if_true]

theorem lineOfWords_wordNext (w : List Char) : lineOfWords [wordNext, w] = (readDecimal w).map .next := rfl

theorem lineOfWords_wordNextl (w : List Char) : lineOfWords [wordNextl, w] = (readDecimal w).map .nextl := rfl

/-- The words of a line spell it, a `REKEY` of no bytes excepted (log 8). -/
theorem lineOfWords_wordsOfLine {l : ListingLine} (h : l ≠ .rekey []) : lineOfWords (wordsOfLine l) = some l := by
  match l with
  | .init [] => rfl
  | .init (b :: bs) =>
    rw [wordsOfLine, lineOfWords_wordInit (map_hexByte_ne_wordEmpty _),
      readSomeKey_map_hexByte (List.cons_ne_nil b bs), Option.map_some]
  | .rekey key =>
    have hkey : key ≠ [] := fun hnil => h (congrArg ListingLine.rekey hnil)
    rw [wordsOfLine, lineOfWords_wordRekey, readSomeKey_map_hexByte hkey, Option.map_some]
  | .next count => rw [wordsOfLine, lineOfWords_wordNext, readDecimal_toDigits, Option.map_some]
  | .nextl count => rw [wordsOfLine, lineOfWords_wordNextl, readDecimal_toDigits, Option.map_some]

/-- Settles O9: the text is cut back into the line's words, and these spell the line. -/
theorem listingLineReadsBack : Obligations.ListingLineReadsBack := by
  intro l hl
  have hparse := parseLine_joinWords (isWord_of_mem_wordsOfLine l) (wordsOfLine_ne_nil l)
  rw [lineOfWords_wordsOfLine hl] at hparse
  exact hparse

end Sys2Proof.Machine
end
